-- ==== Sys2Proof/Word.lean ====
section
/-! DEFINITION. The byte and the machine word. -/

namespace Sys2Proof

/-- One byte: of the program body, of an input or output stream, of a program image. -/
abbrev Byte := BitVec 8

/-- R4: a word is a value in `[0, 2^W)`, `W` 32 or 64. It is held in 64 bits; at `W = 32` the upper 32 bits
are 0 (DESIGN CHOICE, log 2; safe: every operation narrows its result to `W` bits, and that no step leaves
the range is an invariant of `Sys2Proof.Machine.State.Inv`). All words are unsigned (R7). -/
abbrev Word := BitVec 64

end Sys2Proof
end

