-- ==== Sys2Proof/Config.lean ====
section
/-! DEFINITION. The parameters of R5 as plain data, the names of the 39 instructions, and the free values
(opaque constants, no body: no proof can see what they are). -/

namespace Sys2Proof

/-- R4: `WORD_BITS` is 32 or 64. -/
inductive Width where
  | w32
  | w64
deriving DecidableEq, Repr

/-- `W`, the number of bits of a word (R4). -/
def Width.bits : Width → Nat
  | .w32 => 32
  | .w64 => 64

/-- `WB = W / 8`, the number of bytes of a word (R4). -/
def Width.bytes : Width → Nat
  | .w32 => 4
  | .w64 => 8

/-- The 39 mnemonics of the instruction set, in the order of the source's table (R45). -/
inductive Mnemonic where
  | push | pop | dup | swap | rot
  | add | sub | mult | div | mod | pow
  | eq | neq | lt | lte | gt | gte
  | and | or | xor | not
  | bitwiseAnd | bitwiseOr | bitwiseXor | bitwiseNot | shiftLeft | shiftRight
  | alloc | free | sto | ret
  | jmp | jmpIfTrue | jmpIfFalse
  | print | printInt | input | inputInt
  | halt
deriving DecidableEq, Repr

/-- All mnemonics, in the order of R45. -/
def Mnemonic.all : List Mnemonic :=
  [.push, .pop, .dup, .swap, .rot] ++
  [.add, .sub, .mult, .div, .mod, .pow] ++
  [.eq, .neq, .lt, .lte, .gt, .gte] ++
  [.and, .or, .xor, .not] ++
  [.bitwiseAnd, .bitwiseOr, .bitwiseXor, .bitwiseNot, .shiftLeft, .shiftRight] ++
  [.alloc, .free, .sto, .ret] ++
  [.jmp, .jmpIfTrue, .jmpIfFalse] ++
  [.print, .printInt, .input, .inputInt, .halt]

/-- The place of a mnemonic in the order of R45; `OPCODE_MAP` is a list of bytes in this order. -/
def Mnemonic.index : Mnemonic → Nat
  | .push => 0 | .pop => 1 | .dup => 2 | .swap => 3 | .rot => 4
  | .add => 5 | .sub => 6 | .mult => 7 | .div => 8 | .mod => 9 | .pow => 10
  | .eq => 11 | .neq => 12 | .lt => 13 | .lte => 14 | .gt => 15 | .gte => 16
  | .and => 17 | .or => 18 | .xor => 19 | .not => 20
  | .bitwiseAnd => 21 | .bitwiseOr => 22 | .bitwiseXor => 23 | .bitwiseNot => 24
  | .shiftLeft => 25 | .shiftRight => 26
  | .alloc => 27 | .free => 28 | .sto => 29 | .ret => 30
  | .jmp => 31 | .jmpIfTrue => 32 | .jmpIfFalse => 33
  | .print => 34 | .printInt => 35 | .input => 36 | .inputInt => 37
  | .halt => 38

/-- `ROT_MODE` (R5, R63, conflict C1). -/
inductive RotMode where
  | bac
  | bca
deriving DecidableEq, Repr

/-- `POW_WIDE` (R5, R70): `Fault`, or `Value(f)`; `f` is the free value `Config.powWideValue` (log 6). -/
inductive PowWide where
  | fault
  | value
deriving DecidableEq, Repr

/-- The parameters of R5 that the block itself reads. They are configuration (R12): fixed for a run.
They stand in State so that one step function serves every instance (DESIGN CHOICE, log 1; safe: a statement
about every state holds for every value of the parameters). -/
structure Params where
  /-- `WORD_BITS` -/
  width : Width
  /-- `STACK_CAP` -/
  stackCap : Nat
  /-- `OPCODE_MAP`: the opcode byte of each mnemonic, in the order of `Mnemonic.all` -/
  opcodeMap : List Byte
  /-- `ROT_MODE` -/
  rotMode : RotMode
  /-- `POW_WIDE` -/
  powWide : PowWide
deriving DecidableEq, Repr

/-- `SUPPORTED_MAJOR`, `SUPPORTED_MINOR`, `SUPPORTED_PATCH` (R5, R116): OPEN, so they have no value here; the
loader takes them as an argument (log 11). -/
structure EngineVersion where
  major : BitVec 16
  minor : BitVec 16
  patch : BitVec 16
deriving DecidableEq, Repr

/-- One answer of the allocator oracle (R35): `Fail`, or a base address. -/
inductive AllocAnswer where
  | fail
  | base (b : Word)
deriving DecidableEq, Repr, Inhabited

/-- FREE VALUE (log 6): the function `f` of `POW_WIDE = Value(f)` (R5, R70), for each word width. -/
opaque Config.powWideValue : Width → Word → Word → Word

/-- FREE VALUE (log 5): what the allocator oracle answers to the `k`-th draw (R35). -/
opaque Config.allocDraw : Nat → AllocAnswer

end Sys2Proof
end

