-- ==== Sys2Proof/Syntax.lean ====
section
/-! DEFINITION. The instructions: one constructor for each row of spec/opcode_table.json (R45). Only the
five `FI` opcodes carry an operand, one word (R44, R46); every other operand comes from the stack. -/

namespace Sys2Proof

/-- The closed instruction set of R45, in the table's order. -/
inductive Instr where
  /-- PUSH (R59): the word pushed -/
  | push (imm : Word)
  /-- POP (R60) -/
  | pop
  /-- DUP (R61) -/
  | dup
  /-- SWAP (R62) -/
  | swap
  /-- ROT (R63) -/
  | rot
  /-- ADD (R65) -/
  | add
  /-- SUB (R66) -/
  | sub
  /-- MULT (R67) -/
  | mult
  /-- DIV (R68) -/
  | div
  /-- MOD (R69) -/
  | mod
  /-- POW (R70) -/
  | pow
  /-- EQ (R71) -/
  | eq
  /-- NEQ (R72) -/
  | neq
  /-- LT (R73) -/
  | lt
  /-- LTE (R74) -/
  | lte
  /-- GT (R75) -/
  | gt
  /-- GTE (R76) -/
  | gte
  /-- AND (R77) -/
  | and
  /-- OR (R78) -/
  | or
  /-- XOR (R79) -/
  | xor
  /-- NOT (R80) -/
  | not
  /-- BITWISE_AND (R81) -/
  | bitwiseAnd
  /-- BITWISE_OR (R82) -/
  | bitwiseOr
  /-- BITWISE_XOR (R83) -/
  | bitwiseXor
  /-- BITWISE_NOT (R84) -/
  | bitwiseNot
  /-- SHIFT_LEFT (R85) -/
  | shiftLeft
  /-- SHIFT_RIGHT (R86) -/
  | shiftRight
  /-- ALLOC (R87): the number of words -/
  | alloc (imm : Word)
  /-- FREE (R88) -/
  | free
  /-- STO (R89) -/
  | sto
  /-- RET (R90), a load -/
  | ret
  /-- JMP (R92): the target offset -/
  | jmp (imm : Word)
  /-- JMP_IF_TRUE (R93): the target offset -/
  | jmpIfTrue (imm : Word)
  /-- JMP_IF_FALSE (R94): the target offset -/
  | jmpIfFalse (imm : Word)
  /-- PRINT (R95) -/
  | print
  /-- PRINT_INT (R96) -/
  | printInt
  /-- INPUT (R97) -/
  | input
  /-- INPUT_INT (R98) -/
  | inputInt
  /-- HALT (R99) -/
  | halt
deriving DecidableEq, Repr

end Sys2Proof
end

