-- ==== Sys2Proof/WellFormed.lean ====
section
/-! DEFINITION. What makes a word, a set of parameters and an instruction well-formed. -/

namespace Sys2Proof

/-- R4: the value lies in `[0, 2^W)`. -/
abbrev Width.fits (w : Width) (v : Word) : Prop := v.toNat < 2 ^ w.bits

/-- R5: `STACK_CAP >= 3`. -/
abbrev Params.capOk (p : Params) : Prop := 3 ≤ p.stackCap

/-- R5, R45, R47: `OPCODE_MAP` gives each of the 39 mnemonics a byte of its own and never uses 0x99. -/
abbrev OpcodeMapOk (map : List Byte) : Prop :=
  map.length = 39 ∧ map.Nodup ∧ (0x99 : Byte) ∉ map

/-- R5: the parameters lie in their ranges. -/
abbrev Params.Ok (p : Params) : Prop := p.capOk ∧ OpcodeMapOk p.opcodeMap

/-- R44: an immediate is one word of the machine's width; no other instruction has an operand. -/
def Instr.wf (w : Width) : Instr → Bool
  | .push imm => decide (w.fits imm)
  | .alloc imm => decide (w.fits imm)
  | .jmp imm => decide (w.fits imm)
  | .jmpIfTrue imm => decide (w.fits imm)
  | .jmpIfFalse imm => decide (w.fits imm)
  | .pop | .dup | .swap | .rot => true
  | .add | .sub | .mult | .div | .mod | .pow => true
  | .eq | .neq | .lt | .lte | .gt | .gte => true
  | .and | .or | .xor | .not => true
  | .bitwiseAnd | .bitwiseOr | .bitwiseXor | .bitwiseNot | .shiftLeft | .shiftRight => true
  | .free | .sto | .ret => true
  | .print | .printInt | .input | .inputInt | .halt => true

end Sys2Proof
end

