-- ==== Sys2Proof/Decode.lean ====
section
/-! DEFINITION. Decoding (R42 to R49, R54, R55) and, after it, encoding. Total on any bytes; what is not an
instruction is rejected by name. -/

namespace Sys2Proof

/-- The two formats of R43. -/
inductive Format where
  | F0
  | FI
deriving DecidableEq, Repr

/-- R46: the five opcodes with an immediate; every other opcode is format `F0`. -/
def formatOf : Mnemonic → Format
  | .push | .alloc | .jmp | .jmpIfTrue | .jmpIfFalse => .FI
  | .pop | .dup | .swap | .rot => .F0
  | .add | .sub | .mult | .div | .mod | .pow => .F0
  | .eq | .neq | .lt | .lte | .gt | .gte => .F0
  | .and | .or | .xor | .not => .F0
  | .bitwiseAnd | .bitwiseOr | .bitwiseXor | .bitwiseNot | .shiftLeft | .shiftRight => .F0
  | .free | .sto | .ret => .F0
  | .print | .printInt | .input | .inputInt | .halt => .F0

/-- R49: the length in bytes, decided by the opcode alone. -/
def lengthOf (w : Width) (m : Mnemonic) : Nat :=
  match formatOf m with
  | .F0 => 1
  | .FI => 1 + w.bytes

/-- The default `OPCODE_MAP` of R45, row for row (the spec's own choice of bytes, D3). -/
def defaultOpcode : Mnemonic → Byte
  | .push => 0x00 | .pop => 0x01 | .dup => 0x02 | .swap => 0x03 | .rot => 0x04
  | .add => 0x05 | .sub => 0x06 | .mult => 0x07 | .div => 0x08 | .mod => 0x09 | .pow => 0x0A
  | .eq => 0x0B | .neq => 0x0C | .lt => 0x0D | .lte => 0x0E | .gt => 0x0F | .gte => 0x10
  | .and => 0x11 | .or => 0x12 | .xor => 0x13 | .not => 0x14
  | .bitwiseAnd => 0x15 | .bitwiseOr => 0x16 | .bitwiseXor => 0x17 | .bitwiseNot => 0x18
  | .shiftLeft => 0x19 | .shiftRight => 0x1A
  | .alloc => 0x1B | .free => 0x1C | .sto => 0x1D | .ret => 0x1E
  | .jmp => 0x1F | .jmpIfTrue => 0x20 | .jmpIfFalse => 0x21
  | .print => 0x22 | .printInt => 0x23 | .input => 0x24 | .inputInt => 0x25
  | .halt => 0x26

/-- The defaults of R5. -/
def Params.default : Params where
  width := .w64
  stackCap := 256
  opcodeMap := Mnemonic.all.map defaultOpcode
  rotMode := .bac
  powWide := .fault

/-- `OPCODE_MAP(m)`. A list that is too short (no admissible map is) leaves a mnemonic the byte 0x99, which
stands for no instruction under any admissible map (R47; log 14). -/
def opcodeOf (map : List Byte) (m : Mnemonic) : Byte := map.getD m.index 0x99

/-- R54: the mnemonic `m` with `OPCODE_MAP(m) = b`, if there is one. -/
def mnemonicOf (map : List Byte) (b : Byte) : Option Mnemonic :=
  Mnemonic.all.find? fun m => opcodeOf map m == b

/-- The value of a little-endian byte sequence (R27, R28): byte `j` weighs `2^(8*j)`. -/
def wordOfBytes : List Byte → Nat
  | [] => 0
  | b :: rest => b.toNat + 256 * wordOfBytes rest

/-- The instruction a mnemonic and an immediate make; a format `F0` mnemonic ignores the immediate. -/
def Instr.ofMnemonic (m : Mnemonic) (imm : Word) : Instr :=
  match m with
  | .push => .push imm | .pop => .pop | .dup => .dup | .swap => .swap | .rot => .rot
  | .add => .add | .sub => .sub | .mult => .mult | .div => .div | .mod => .mod | .pow => .pow
  | .eq => .eq | .neq => .neq | .lt => .lt | .lte => .lte | .gt => .gt | .gte => .gte
  | .and => .and | .or => .or | .xor => .xor | .not => .not
  | .bitwiseAnd => .bitwiseAnd | .bitwiseOr => .bitwiseOr | .bitwiseXor => .bitwiseXor
  | .bitwiseNot => .bitwiseNot | .shiftLeft => .shiftLeft | .shiftRight => .shiftRight
  | .alloc => .alloc imm | .free => .free | .sto => .sto | .ret => .ret
  | .jmp => .jmp imm | .jmpIfTrue => .jmpIfTrue imm | .jmpIfFalse => .jmpIfFalse imm
  | .print => .print | .printInt => .printInt | .input => .input | .inputInt => .inputInt
  | .halt => .halt

/-- Why bytes are not an instruction: R53 (nothing to fetch), R54 (no opcode), R55 (immediate past the end). -/
inductive DecodeError where
  | endOfBody
  | unknownOpcode (b : Byte)
  | immediatePastEnd
deriving DecidableEq, Repr

/-- R53 to R55: read one instruction from the bytes at the pc; answer it and the bytes after it. -/
def decode (p : Params) : List Byte → Except DecodeError (Instr × List Byte)
  | [] => .error .endOfBody
  | b :: rest =>
    match mnemonicOf p.opcodeMap b with
    | none => .error (.unknownOpcode b)
    | some m =>
      match formatOf m with
      | .F0 => .ok (.ofMnemonic m 0, rest)
      | .FI =>
        if rest.length < p.width.bytes then .error .immediatePastEnd
        else .ok (.ofMnemonic m (BitVec.ofNat 64 (wordOfBytes (rest.take p.width.bytes))), rest.drop p.width.bytes)

/-! ## The encoder (R42 to R45) -/

/-- The mnemonic of an instruction. -/
def Instr.mnemonic : Instr → Mnemonic
  | .push _ => .push | .pop => .pop | .dup => .dup | .swap => .swap | .rot => .rot
  | .add => .add | .sub => .sub | .mult => .mult | .div => .div | .mod => .mod | .pow => .pow
  | .eq => .eq | .neq => .neq | .lt => .lt | .lte => .lte | .gt => .gt | .gte => .gte
  | .and => .and | .or => .or | .xor => .xor | .not => .not
  | .bitwiseAnd => .bitwiseAnd | .bitwiseOr => .bitwiseOr | .bitwiseXor => .bitwiseXor
  | .bitwiseNot => .bitwiseNot | .shiftLeft => .shiftLeft | .shiftRight => .shiftRight
  | .alloc _ => .alloc | .free => .free | .sto => .sto | .ret => .ret
  | .jmp _ => .jmp | .jmpIfTrue _ => .jmpIfTrue | .jmpIfFalse _ => .jmpIfFalse
  | .print => .print | .printInt => .printInt | .input => .input | .inputInt => .inputInt
  | .halt => .halt

/-- The immediate of an instruction, for the five that have one (R46). -/
def Instr.immediate : Instr → Option Word
  | .push imm | .alloc imm | .jmp imm | .jmpIfTrue imm | .jmpIfFalse imm => some imm
  | .pop | .dup | .swap | .rot => none
  | .add | .sub | .mult | .div | .mod | .pow => none
  | .eq | .neq | .lt | .lte | .gt | .gte => none
  | .and | .or | .xor | .not => none
  | .bitwiseAnd | .bitwiseOr | .bitwiseXor | .bitwiseNot | .shiftLeft | .shiftRight => none
  | .free | .sto | .ret => none
  | .print | .printInt | .input | .inputInt | .halt => none

/-- The first `n` bytes of a number, least significant first (R28, R43). -/
def bytesOfWord : Nat → Nat → List Byte
  | 0, _ => []
  | n + 1, v => BitVec.ofNat 8 v :: bytesOfWord n (v / 256)

/-- R43: the opcode byte, and the immediate's `WB` bytes where there is one. -/
def encode (p : Params) (i : Instr) : List Byte :=
  opcodeOf p.opcodeMap i.mnemonic ::
    match i.immediate with
    | none => []
    | some imm => bytesOfWord p.width.bytes imm.toNat

/-! ## The host's table words -/

/-- The bytes of a table word: bit 0 of `w` is the least significant bit of the first byte, and the bits
above `nbits` are 0. -/
def tableBytes (nbits w len : Nat) : List Byte := bytesOfWord len (w % 2 ^ nbits)

/-- The longest instruction (R49). -/
def longest (w : Width) : Nat := 1 + w.bytes

/-- The instruction the decoder reads, under the default parameters, from a word of the opcode table. -/
def decodeTableWord (nbits w : Nat) : Option Instr :=
  match decode .default (tableBytes nbits w (longest Params.default.width)) with
  | .ok (i, _) => some i
  | .error _ => none

end Sys2Proof
end

