-- ==== Sys2Proof/Machine/State.lean ====
section
/-! DEFINITION. The state of one engine instance (R12), plain data, and the state after reset (R119). -/

namespace Sys2Proof.Machine

/-- R31: why a heap access is invalid. -/
inductive MemReason where
  | unmapped
  | uninitialized
deriving DecidableEq, Repr

/-- R97, R98: why an input instruction fails. -/
inductive InputReason where
  | endOfInput
  | notANumber
  | outOfRange
deriving DecidableEq, Repr

/-- The fault kinds of R101, each with the values it records as `info`. -/
inductive FaultCause where
  /-- code 1: a byte outside `OPCODE_MAP` was fetched as an opcode (R54) -/
  | unknownOpcode (byte : Byte)
  /-- code 2: the depth check, too full (R56) -/
  | stackOverflow (op : Mnemonic) (sp : Nat)
  /-- code 3: the depth check, too few words (R56) -/
  | stackUnderflow (op : Mnemonic) (sp : Nat)
  /-- code 4: `DIV`, `MOD` by 0 (R68, R69) -/
  | divisionByZero (lhs : Word)
  /-- code 5: `FREE` of what is no live base (R88) -/
  | invalidFree (addr : Word)
  /-- code 6: `STO`, `RET` (R31, R32) -/
  | invalidMemoryAccess (addr : Word) (reason : MemReason)
  /-- code 7: fetch past the body (R53, R55); the opcode's offset and the bytes needed -/
  | programOutOfBounds (offset : Word) (needed : Nat)
  /-- code 8: the allocator answered `Fail` (R87) -/
  | allocationFailed (words : Word)
  /-- code 9: a shift by `W` or more (R85, R86) -/
  | invalidShift (amount : Word)
  /-- code 10: `POW` with `POW_WIDE = Fault` (R70) -/
  | powOutOfRange (lhs rhs : Word)
  /-- code 11: `INPUT`, `INPUT_INT` (R97, R98) -/
  | inputError (reason : InputReason)
deriving DecidableEq, Repr

/-- R23: the fault record `(kind, info, faultPc)`; the kind and its info are one `FaultCause`. -/
structure FaultRecord where
  cause : FaultCause
  faultPc : Word
deriving DecidableEq, Repr

/-- R13. -/
inductive Status where
  | running
  | halted
  | faulted (rec : FaultRecord)
deriving DecidableEq, Repr

/-- R21: a live block `(base, n, cell[0..n-1])`. `cells` lists the cells that hold a word, by index, indexes
strictly rising; a cell that is not listed is `Uninit` (log 10). -/
structure Block where
  base : Word
  words : Nat
  cells : List (Nat × Word)
deriving DecidableEq, Repr

/-- R21: the heap, the finite set of live blocks, as a list by rising base (log 10). -/
abbrev Memory := List Block

/-- R115: the program header. -/
structure Header where
  major : BitVec 16
  minor : BitVec 16
  patch : BitVec 16
  bodySize : BitVec 32
deriving DecidableEq, Repr

/-- R20, R115: "an immutable header plus an owned, fixed-length sequence of bytes". -/
structure Program where
  header : Header
  body : List Byte
deriving DecidableEq, Repr

/-- R12: the state of one engine instance, with its configuration beside it. -/
structure State where
  /-- the parameters of R5; no instruction writes them -/
  params : Params
  /-- the loaded program (R20); no instruction writes it -/
  program : Program
  /-- R13, R23 -/
  status : Status
  /-- R14 -/
  pc : Word
  /-- R15: the slots `stk[0..STACK_CAP-1]` -/
  stk : List Word
  /-- R15: the next free slot -/
  sp : Nat
  /-- R21 -/
  heap : Memory
  /-- the model's own (log 5): answers of the allocator oracle known in advance, by draw -/
  allocScript : List AllocAnswer
  /-- the model's own (log 5): draws taken so far -/
  allocDraws : Nat
  /-- R22: the bytes sent to standard output -/
  outHist : List Byte
  /-- R5, R22: the bytes the host has supplied so far, from the start of the stream -/
  inStream : List Byte
  /-- R97, R112: the host has ended the input stream -/
  inEnded : Bool
  /-- R22: bytes taken from the input stream -/
  inPos : Nat
deriving DecidableEq, Repr

/-- Why there is no step. The faults of R101 are NOT here: the spec describes their entry, so they are next
states whose `status` is `faulted` (log 3). -/
inductive Fault where
  /-- Raised by `step` when the status is `Halted`: the block has no step (R52). Safe. -/
  | halted
  /-- Raised by `step` when the status is `Faulted(rec)`: the block has no step (R52). Safe. -/
  | faulted (rec : FaultRecord)
  /-- Raised by `exec` of `INPUT` and `INPUT_INT`, and so by `step`, while the host has neither supplied the byte
  the instruction looks at nor ended the stream: the block is stuck in the state it is in, with status `Running`,
  until a host move lifts the hold (R97, R98, U18; log 4). Safe. -/
  | waiting
deriving DecidableEq, Repr

/-- Why the model gives an instruction no meaning. -/
inductive Refusal where
  /-- Raised by `exec` for an instruction without a meaning yet (none is left). Safe. -/
  | notModelled (mnemonic : String)
deriving DecidableEq, Repr

/-- R119: the state a block starts in after a load of `prog` under the parameters `p`. The slots of the stack
are unspecified and unreadable there (R17); 0 is a DESIGN CHOICE (log 7, unsafe, no rule reads them). The input
stream has nothing supplied yet and the allocator script is empty (DESIGN CHOICE, log 9). -/
def State.start (p : Params) (prog : Program) : State where
  params := p
  program := prog
  status := .running
  pc := 0
  stk := List.replicate p.stackCap 0
  sp := 0
  heap := []
  allocScript := []
  allocDraws := 0
  outHist := []
  inStream := []
  inEnded := false
  inPos := 0

/-- The program part of a block that nothing has been loaded into (DESIGN CHOICE, log 8). -/
def Program.none : Program := ⟨⟨0, 0, 0, 0⟩, []⟩

/-- R119 under the defaults of R5, with no program loaded yet (log 8). -/
def State.reset : State := .start .default .none

end Sys2Proof.Machine
end

