-- ==== Sys2Proof/Machine/Flags.lean ====
section
/-! DEFINITION. The machine has no flags and no condition codes (R18): a comparison pushes its result as a
word, and a conditional jump pops its condition. These are the two conversions of R10. -/

namespace Sys2Proof.Machine

/-- R10: a word used as a condition is true when it is not 0. -/
def truthy (v : Word) : Bool := v.toNat != 0

/-- R10: a Boolean result is the word 1 or the word 0. -/
def boolWord (b : Bool) : Word := if b then 1 else 0

end Sys2Proof.Machine
end

