-- ==== Sys2Proof/Machine/Operands.lean ====
section
/-! DEFINITION. What an instruction takes from the stack and leaves there (R50), the successor address (R57),
and the word arithmetic of R11: exact over unbounded integers, then narrowed once. -/

namespace Sys2Proof.Machine

/-- R50: how many words an instruction pops. -/
def pops : Mnemonic → Nat
  | .push => 0 | .pop => 1 | .dup => 1 | .swap => 2 | .rot => 3
  | .add | .sub | .mult | .div | .mod | .pow => 2
  | .eq | .neq | .lt | .lte | .gt | .gte => 2
  | .and | .or | .xor => 2
  | .not => 1
  | .bitwiseAnd | .bitwiseOr | .bitwiseXor => 2
  | .bitwiseNot => 1
  | .shiftLeft | .shiftRight => 2
  | .alloc => 0 | .free => 1 | .sto => 2 | .ret => 1
  | .jmp => 0 | .jmpIfTrue => 1 | .jmpIfFalse => 1
  | .print => 1 | .printInt => 1 | .input => 0 | .inputInt => 0
  | .halt => 0

/-- R50: how many words an instruction then pushes. -/
def pushes : Mnemonic → Nat
  | .push => 1 | .pop => 0 | .dup => 2 | .swap => 2 | .rot => 3
  | .add | .sub | .mult | .div | .mod | .pow => 1
  | .eq | .neq | .lt | .lte | .gt | .gte => 1
  | .and | .or | .xor => 1
  | .not => 1
  | .bitwiseAnd | .bitwiseOr | .bitwiseXor => 1
  | .bitwiseNot => 1
  | .shiftLeft | .shiftRight => 1
  | .alloc => 1 | .free => 0 | .sto => 0 | .ret => 1
  | .jmp => 0 | .jmpIfTrue => 0 | .jmpIfFalse => 0
  | .print => 0 | .printInt => 0 | .input => 1 | .inputInt => 1
  | .halt => 0

/-- R11: `wrap(x) = x mod 2^W` of an unbounded integer, as a word. -/
def wrap (w : Width) (x : Int) : Word := BitVec.ofNat 64 (x % (2 ^ w.bits : Nat)).toNat

/-- R57: the sequential successor `pc + len` (it never wraps in a reachable fetch, R14; log 16). -/
def nextPc (m : Mnemonic) (s : State) : Word := wrap s.params.width (s.pc.toNat + lengthOf s.params.width m : Nat)

/-- R65. -/
def addWord (w : Width) (lhs rhs : Word) : Word := wrap w ((lhs.toNat : Int) + rhs.toNat)

/-- R66. -/
def subWord (w : Width) (lhs rhs : Word) : Word := wrap w ((lhs.toNat : Int) - rhs.toNat)

/-- R67. -/
def multWord (w : Width) (lhs rhs : Word) : Word := wrap w ((lhs.toNat : Int) * rhs.toNat)

/-- R68: the quotient, or the fault. -/
def divWord (w : Width) (lhs rhs : Word) : Except FaultCause Word :=
  if rhs.toNat = 0 then .error (.divisionByZero lhs) else .ok (wrap w (lhs.toNat / rhs.toNat : Nat))

/-- R69: the remainder, or the fault. -/
def modWord (w : Width) (lhs rhs : Word) : Except FaultCause Word :=
  if rhs.toNat = 0 then .error (.divisionByZero lhs) else .ok (wrap w (lhs.toNat % rhs.toNat : Nat))

/-- R70: `T = 2^min(W, 53)`. -/
def powLimit (w : Width) : Nat := 2 ^ min w.bits 53

/-- R70: `x^y` as far as it matters below `2^64`: the exponent is cut to 1 for a base of 0 or 1 and to 64 for
a larger base. `Sys2Proof.Laws.powCapped_lt_iff` and `powCapped_eq` say that comparing with a limit up to `2^64`,
and the value below it, are those of the exact power. -/
def powCapped (x y : Nat) : Nat := x ^ (if x ≤ 1 then min y 1 else min y 64)

/-- R70: the exact power below `T`; otherwise `POW_WIDE` decides (`f` is a free value, log 6). -/
def powWord (p : Params) (lhs rhs : Word) : Except FaultCause Word :=
  if powCapped lhs.toNat rhs.toNat < powLimit p.width then .ok (wrap p.width (powCapped lhs.toNat rhs.toNat : Nat))
  else match p.powWide with
    | .fault => .error (.powOutOfRange lhs rhs)
    | .value => .ok (wrap p.width (Config.powWideValue p.width lhs rhs).toNat)

/-- R84: `(2^W - 1) - v`. -/
def notWord (w : Width) (v : Word) : Word := wrap w ((2 ^ w.bits - 1 : Nat) - (v.toNat : Int))

/-- R85: `wrap(lhs * 2^rhs)`, or the fault for an amount of `W` or more. -/
def shiftLeftWord (w : Width) (lhs rhs : Word) : Except FaultCause Word :=
  if w.bits ≤ rhs.toNat then .error (.invalidShift rhs) else .ok (wrap w (lhs.toNat * 2 ^ rhs.toNat : Nat))

/-- R86: `floor(lhs / 2^rhs)`, or the fault for an amount of `W` or more. -/
def shiftRightWord (w : Width) (lhs rhs : Word) : Except FaultCause Word :=
  if w.bits ≤ rhs.toNat then .error (.invalidShift rhs) else .ok (wrap w (lhs.toNat / 2 ^ rhs.toNat : Nat))

end Sys2Proof.Machine
end

