-- ==== Sys2Proof/Machine/Ops.lean ====
section
/-! DEFINITION. The named operations over the state (R8): stack, heap, allocator, streams, fetch, taking a
fault, and the frame every instruction runs in (R56, R57, R9). -/

namespace Sys2Proof.Machine

/-! ## Faults -/

/-- R9, R100, R104: taking a fault writes the record and nothing else; `faultPc` is the pc (R102). There is
no return from a fault (R105), so no operation stands beside this one. -/
def takeFault (c : FaultCause) (s : State) : State := { s with status := .faulted ⟨c, s.pc⟩ }

/-- R101: the cause code. -/
def FaultCause.code : FaultCause → Nat
  | .unknownOpcode _ => 1
  | .stackOverflow _ _ => 2
  | .stackUnderflow _ _ => 3
  | .divisionByZero _ => 4
  | .invalidFree _ => 5
  | .invalidMemoryAccess _ _ => 6
  | .programOutOfBounds _ _ => 7
  | .allocationFailed _ => 8
  | .invalidShift _ => 9
  | .powOutOfRange _ _ => 10
  | .inputError _ => 11

/-- R106: the exit status; a run that has not ended has none. -/
def exitStatus : Status → Option Nat
  | .running => none
  | .halted => some 0
  | .faulted _ => some 1

/-! ## The evaluation stack -/

/-- R16: write at the stack pointer, then increment it. -/
def push (v : Word) (s : State) : State := { s with stk := s.stk.set s.sp v, sp := s.sp + 1 }

/-- R16: decrement the stack pointer, then read there. The slot keeps its value (R17). (Depth is checked
before, R56; a slot list shorter than `STACK_CAP` is no reachable state, and reads 0 there: log 14.) -/
def pop (s : State) : Word × State := (s.stk.getD (s.sp - 1) 0, { s with sp := s.sp - 1 })

/-! ## The heap -/

/-- R35: the bytes a block's range owns, counted with at least one word. -/
def Block.span (w : Width) (b : Block) : Nat := max b.words 1 * w.bytes

/-- R30: `a` is one of the block's words. -/
def Block.covers (w : Width) (a : Word) (b : Block) : Bool :=
  decide (b.base.toNat ≤ a.toNat) && decide (a.toNat < b.base.toNat + b.words * w.bytes) &&
    decide ((a.toNat - b.base.toNat) % w.bytes = 0)

/-- R30: the index of the word at `a`. -/
def Block.wordAt (w : Width) (a : Word) (b : Block) : Nat := (a.toNat - b.base.toNat) / w.bytes

/-- The word a cell list holds at an index; an index that is not listed is `Uninit`. -/
def cellRead (k : Nat) : List (Nat × Word) → Option Word
  | [] => none
  | (j, v) :: rest => if j = k then some v else cellRead k rest

/-- Write a cell, keeping the indexes strictly rising. -/
def cellWrite (k : Nat) (v : Word) : List (Nat × Word) → List (Nat × Word)
  | [] => [(k, v)]
  | (j, u) :: rest =>
    if j < k then (j, u) :: cellWrite k v rest
    else if j = k then (k, v) :: rest
    else (k, v) :: (j, u) :: rest

/-- What one read of the heap gives (R31). -/
inductive CellRead where
  | unmapped
  | uninit
  | word (v : Word)
deriving DecidableEq, Repr

/-- R30, R31: read the cell of `a`. -/
def Memory.read (w : Width) (a : Word) : Memory → CellRead
  | [] => .unmapped
  | b :: rest =>
    if b.covers w a then
      match cellRead (b.wordAt w a) b.cells with
      | none => .uninit
      | some v => .word v
    else Memory.read w a rest

/-- R32: write the cell of `a`; nothing where `a` is not word-valid. -/
def Memory.write (w : Width) (a v : Word) : Memory → Option Memory
  | [] => none
  | b :: rest =>
    if b.covers w a then some ({ b with cells := cellWrite (b.wordAt w a) v b.cells } :: rest)
    else (Memory.write w a v rest).map (b :: ·)

/-- R36: remove the block whose base is exactly `a`; nothing where there is none. -/
def Memory.release (a : Word) : Memory → Option Memory
  | [] => none
  | b :: rest => if b.base = a then some rest else (Memory.release a rest).map (b :: ·)

/-- Add a block, keeping the bases strictly rising. -/
def Memory.insert (b : Block) : Memory → Memory
  | [] => [b]
  | c :: rest => if b.base.toNat < c.base.toNat then b :: c :: rest else c :: Memory.insert b rest

/-- R35: what a base for `n` words must meet. -/
def Memory.admits (w : Width) (n : Nat) (base : Word) (m : Memory) : Bool :=
  decide (base.toNat ≠ 0) && decide (base.toNat % w.bytes = 0) &&
    decide (base.toNat + max n 1 * w.bytes ≤ 2 ^ w.bits) &&
    m.all fun c => decide (base.toNat + max n 1 * w.bytes ≤ c.base.toNat) ||
      decide (c.base.toNat + c.span w ≤ base.toNat)

/-- The canonical form of one block: R35's constraints on its base, its cells by strictly rising index below
`n`, its words of `W` bits. -/
abbrev Block.wf (w : Width) (b : Block) : Prop :=
  b.base.toNat ≠ 0 ∧ b.base.toNat % w.bytes = 0 ∧ b.base.toNat + b.span w ≤ 2 ^ w.bits ∧
    b.cells.Pairwise (fun c d => c.1 < d.1) ∧ ∀ c ∈ b.cells, c.1 < b.words ∧ w.fits c.2

/-- The canonical form of the heap: well-formed blocks, by rising base, no two ranges overlapping (R35). -/
abbrev Memory.wf (w : Width) (m : Memory) : Prop :=
  (∀ b ∈ m, b.wf w) ∧ m.Pairwise fun b c => b.base.toNat + b.span w ≤ c.base.toNat

/-! ## The allocator (R35; DESIGN CHOICE, log 5) -/

/-- The oracle's answer to the next draw: from the script where it reaches that far, else a free value. -/
def allocAnswer (s : State) : AllocAnswer := (s.allocScript[s.allocDraws]?).getD (Config.allocDraw s.allocDraws)

/-- R35: `Alloc(n)`: a base and the heap with the new block, all its cells `Uninit`; nothing on `Fail`. An
answer that breaks R35's constraints is none the spec allows, and reads as `Fail`, which R35 always allows. -/
def alloc (n : Word) (s : State) : Option (Word × State) :=
  match allocAnswer s with
  | .fail => none
  | .base b =>
    if Memory.admits s.params.width n.toNat b s.heap then
      some (b, { s with heap := Memory.insert ⟨b, n.toNat, []⟩ s.heap, allocDraws := s.allocDraws + 1 })
    else none

/-! ## The streams (R22) -/

/-- `Out`: append bytes to the output stream. -/
def out (bs : List Byte) (s : State) : State := { s with outHist := s.outHist ++ bs }

/-- The bytes the host has supplied and no instruction has taken. -/
def unread (s : State) : List Byte := s.inStream.drop s.inPos

/-- What an input instruction finds in the stream: a value and how many bytes it takes, a failure, or that it
must wait for the host (R97 "Hold"). -/
inductive InputScan where
  | value (v : Word) (taken : Nat)
  | fail (r : InputReason)
  | wait
deriving DecidableEq, Repr

/-- R97: `In()`, one raw byte. -/
def scanByte (ended : Bool) : List Byte → InputScan
  | [] => if ended then .fail .endOfInput else .wait
  | b :: _ => .value (BitVec.ofNat 64 b.toNat) 1

/-- R98: white space is 0x20 and 0x09 to 0x0D. -/
def isSpace (b : Byte) : Bool := b.toNat == 0x20 || (decide (0x09 ≤ b.toNat) && decide (b.toNat ≤ 0x0D))

/-- R98: the digits are 0x30 to 0x39. -/
def isDigit (b : Byte) : Bool := decide (0x30 ≤ b.toNat) && decide (b.toNat ≤ 0x39)

/-- R98: `v <- v * 10 + (digit - 0x30)`, over the digits in order, from `v`. -/
def digitsValue (v : Nat) (digits : List Byte) : Nat := digits.foldl (fun v d => v * 10 + (d.toNat - 0x30)) v

/-- R98: skip white space, then read digits up to the first other byte, which is not taken. The instruction
waits where the host has neither supplied the byte it looks at nor ended the stream. -/
def scanInt (w : Width) (ended : Bool) (bytes : List Byte) : InputScan :=
  match bytes.dropWhile isSpace with
  | [] => if ended then .fail .endOfInput else .wait
  | b :: rest =>
    if isDigit b then
      let digits := (b :: rest).takeWhile isDigit
      if digits.length = (b :: rest).length ∧ ended = false then .wait
      else if 2 ^ w.bits ≤ digitsValue 0 digits then .fail .outOfRange
      else .value (BitVec.ofNat 64 (digitsValue 0 digits)) ((bytes.takeWhile isSpace).length + digits.length)
    else .fail .notANumber

/-- R96: the decimal digits of `v`, most significant first, no leading zeros; `fuel` digits at most. -/
def decimalDigits : Nat → Nat → List Byte
  | 0, _ => []
  | fuel + 1, v =>
    if v < 10 then [BitVec.ofNat 8 (0x30 + v)]
    else decimalDigits fuel (v / 10) ++ [BitVec.ofNat 8 (0x30 + v % 10)]

/-- R96: a word in unsigned decimal; a word has at most 20 digits. -/
def decimal (v : Word) : List Byte := decimalDigits 20 v.toNat

/-! ## Fetch (R26, R27, R53 to R55) -/

/-- R26: the program byte at an offset, where there is one. -/
def fetch8 (s : State) (a : Word) : Option Byte := s.program.body[a.toNat]?

/-- R27: the word at an offset, little-endian, where the body holds all its bytes. -/
def fetchWord (s : State) (a : Word) : Option Word :=
  if s.program.body.length < a.toNat + s.params.width.bytes then none
  else some (BitVec.ofNat 64 (wordOfBytes ((s.program.body.drop a.toNat).take s.params.width.bytes)))

/-- The fault each failure to decode stands for (R53, R54, R55). -/
def fetchFault (s : State) : DecodeError → FaultCause
  | .endOfBody => .programOutOfBounds s.pc 1
  | .unknownOpcode b => .unknownOpcode b
  | .immediatePastEnd => .programOutOfBounds s.pc (1 + s.params.width.bytes)

/-- R53 to R55: the instruction at the pc, or the fault of fetching it. -/
def fetch (s : State) : Except FaultCause Instr :=
  match decode s.params (s.program.body.drop s.pc.toNat) with
  | .ok (i, _) => .ok i
  | .error e => .error (fetchFault s e)

/-! ## The frame of every instruction -/

/-- What an instruction's own pseudocode comes to. -/
inductive Effect where
  /-- it completes, and the pc goes on to the next instruction -/
  | done (s : State)
  /-- it completes, and the pc goes to `target` -/
  | jump (s : State) (target : Word)
  /-- it raises a fault (R9) -/
  | raised (c : FaultCause)
  /-- it has no step until the host acts (R97) -/
  | hold

/-- R56: the depth check, before anything changes. -/
def depthFault (op : Mnemonic) (s : State) : Option FaultCause :=
  if s.sp < pops op then some (.stackUnderflow op s.sp)
  else if s.params.stackCap < s.sp - pops op + pushes op then some (.stackOverflow op s.sp)
  else none

/-- R57, R9: all writes take effect together; a fault discards them. A held instruction has no step (R97; log 4). -/
def commit (op : Mnemonic) (s : State) : Effect → Host.Outcome State Fault Refusal
  | .done t => .next { t with pc := nextPc op s }
  | .jump t target => .next { t with pc := target }
  | .raised c => .next (takeFault c s)
  | .hold => .fault .waiting

/-- R56, R57: the depth check, then the instruction's own pseudocode, then the commit. -/
def runInstr (op : Mnemonic) (body : State → Effect) (s : State) : Host.Outcome State Fault Refusal :=
  match depthFault op s with
  | some c => .next (takeFault c s)
  | none => commit op s (body s)

/-- R64: `rhs <- pop(); lhs <- pop(); push(lhs OP rhs)`, where the operation may fault. -/
def binary (op : Mnemonic) (f : Word → Word → Except FaultCause Word) (s : State) :
    Host.Outcome State Fault Refusal :=
  runInstr op (fun s =>
    let (rhs, s₁) := pop s
    let (lhs, s₂) := pop s₁
    match f lhs rhs with
    | .ok v => .done (push v s₂)
    | .error c => .raised c) s

/-- `v <- pop(); push(OP v)` (R80, R84). -/
def unary (op : Mnemonic) (f : Word → Word) (s : State) : Host.Outcome State Fault Refusal :=
  runInstr op (fun s =>
    let (v, s₁) := pop s
    .done (push (f v) s₁)) s

/-- R97, R98: take what the scan found and push it. -/
def takeInput (scan : InputScan) (s : State) : Effect :=
  match scan with
  | .value v n => .done (push v { s with inPos := s.inPos + n })
  | .fail r => .raised (.inputError r)
  | .wait => .hold

end Sys2Proof.Machine
end

