-- ==== Sys2Proof/Machine/Arithmetic.lean ====
section
/-! DEFINITION. 42_arithmetic.md: ADD, SUB, MULT, DIV, MOD, POW. -/

namespace Sys2Proof.Machine

/-- R65. -/
def execAdd (s : State) : Host.Outcome State Fault Refusal :=
  binary .add (fun lhs rhs => .ok (addWord s.params.width lhs rhs)) s

/-- R66. -/
def execSub (s : State) : Host.Outcome State Fault Refusal :=
  binary .sub (fun lhs rhs => .ok (subWord s.params.width lhs rhs)) s

/-- R67. -/
def execMult (s : State) : Host.Outcome State Fault Refusal :=
  binary .mult (fun lhs rhs => .ok (multWord s.params.width lhs rhs)) s

/-- R68. -/
def execDiv (s : State) : Host.Outcome State Fault Refusal :=
  binary .div (divWord s.params.width) s

/-- R69. -/
def execMod (s : State) : Host.Outcome State Fault Refusal :=
  binary .mod (modWord s.params.width) s

/-- R70. -/
def execPow (s : State) : Host.Outcome State Fault Refusal :=
  binary .pow (powWord s.params) s

end Sys2Proof.Machine
end

