-- ==== Sys2Proof/Machine/Bitwise.lean ====
section
/-! DEFINITION. 45_bitwise.md: BITWISE_AND, BITWISE_OR, BITWISE_XOR, BITWISE_NOT, SHIFT_LEFT, SHIFT_RIGHT. -/

namespace Sys2Proof.Machine

/-- R81. -/
def execBitwiseAnd (s : State) : Host.Outcome State Fault Refusal :=
  binary .bitwiseAnd (fun lhs rhs => .ok (lhs &&& rhs)) s

/-- R82. -/
def execBitwiseOr (s : State) : Host.Outcome State Fault Refusal :=
  binary .bitwiseOr (fun lhs rhs => .ok (lhs ||| rhs)) s

/-- R83. -/
def execBitwiseXor (s : State) : Host.Outcome State Fault Refusal :=
  binary .bitwiseXor (fun lhs rhs => .ok (lhs ^^^ rhs)) s

/-- R84. -/
def execBitwiseNot (s : State) : Host.Outcome State Fault Refusal :=
  unary .bitwiseNot (notWord s.params.width) s

/-- R85. -/
def execShiftLeft (s : State) : Host.Outcome State Fault Refusal :=
  binary .shiftLeft (shiftLeftWord s.params.width) s

/-- R86. -/
def execShiftRight (s : State) : Host.Outcome State Fault Refusal :=
  binary .shiftRight (shiftRightWord s.params.width) s

end Sys2Proof.Machine
end

