-- ==== Sys2Proof/Machine/Comparison.lean ====
section
/-! DEFINITION. 43_comparison.md: EQ, NEQ, LT, LTE, GT, GTE, all unsigned. -/

namespace Sys2Proof.Machine

/-- R71. -/
def execEq (s : State) : Host.Outcome State Fault Refusal :=
  binary .eq (fun lhs rhs => .ok (boolWord (decide (lhs.toNat = rhs.toNat)))) s

/-- R72. -/
def execNeq (s : State) : Host.Outcome State Fault Refusal :=
  binary .neq (fun lhs rhs => .ok (boolWord (decide (lhs.toNat ≠ rhs.toNat)))) s

/-- R73. -/
def execLt (s : State) : Host.Outcome State Fault Refusal :=
  binary .lt (fun lhs rhs => .ok (boolWord (decide (lhs.toNat < rhs.toNat)))) s

/-- R74. -/
def execLte (s : State) : Host.Outcome State Fault Refusal :=
  binary .lte (fun lhs rhs => .ok (boolWord (decide (lhs.toNat ≤ rhs.toNat)))) s

/-- R75. -/
def execGt (s : State) : Host.Outcome State Fault Refusal :=
  binary .gt (fun lhs rhs => .ok (boolWord (decide (lhs.toNat > rhs.toNat)))) s

/-- R76. -/
def execGte (s : State) : Host.Outcome State Fault Refusal :=
  binary .gte (fun lhs rhs => .ok (boolWord (decide (lhs.toNat ≥ rhs.toNat)))) s

end Sys2Proof.Machine
end

