-- ==== Sys2Proof/Machine/Control.lean ====
section
/-! DEFINITION. 47_control.md and 49_termination.md: JMP, JMP_IF_TRUE, JMP_IF_FALSE, HALT. A target is not
checked by the jump (R91): the next fetch checks it. -/

namespace Sys2Proof.Machine

/-- R92. -/
def execJmp (imm : Word) (s : State) : Host.Outcome State Fault Refusal :=
  runInstr .jmp (fun s => .jump s imm) s

/-- R93. -/
def execJmpIfTrue (imm : Word) (s : State) : Host.Outcome State Fault Refusal :=
  runInstr .jmpIfTrue (fun s =>
    let (c, s₁) := pop s
    if truthy c then .jump s₁ imm else .done s₁) s

/-- R94. -/
def execJmpIfFalse (imm : Word) (s : State) : Host.Outcome State Fault Refusal :=
  runInstr .jmpIfFalse (fun s =>
    let (c, s₁) := pop s
    if truthy c then .done s₁ else .jump s₁ imm) s

/-- R99. -/
def execHalt (s : State) : Host.Outcome State Fault Refusal :=
  runInstr .halt (fun s => .done { s with status := .halted }) s

end Sys2Proof.Machine
end

