-- ==== Sys2Proof/Machine/Heap.lean ====
section
/-! DEFINITION. 46_memory_ops.md: ALLOC, FREE, STO, RET. -/

namespace Sys2Proof.Machine

/-- R87. -/
def execAlloc (imm : Word) (s : State) : Host.Outcome State Fault Refusal :=
  runInstr .alloc (fun s =>
    match alloc imm s with
    | some (b, s₁) => .done (push b s₁)
    | none => .raised (.allocationFailed imm)) s

/-- R88. -/
def execFree (s : State) : Host.Outcome State Fault Refusal :=
  runInstr .free (fun s =>
    let (a, s₁) := pop s
    match Memory.release a s₁.heap with
    | some m => .done { s₁ with heap := m }
    | none => .raised (.invalidFree a)) s

/-- R89. -/
def execSto (s : State) : Host.Outcome State Fault Refusal :=
  runInstr .sto (fun s =>
    let (v, s₁) := pop s
    let (a, s₂) := pop s₁
    match Memory.write s.params.width a v s₂.heap with
    | some m => .done { s₂ with heap := m }
    | none => .raised (.invalidMemoryAccess a .unmapped)) s

/-- R90. -/
def execRet (s : State) : Host.Outcome State Fault Refusal :=
  runInstr .ret (fun s =>
    let (a, s₁) := pop s
    match Memory.read s.params.width a s₁.heap with
    | .word v => .done (push v s₁)
    | .unmapped => .raised (.invalidMemoryAccess a .unmapped)
    | .uninit => .raised (.invalidMemoryAccess a .uninitialized)) s

end Sys2Proof.Machine
end

