-- ==== Sys2Proof/Machine/InOut.lean ====
section
/-! DEFINITION. 48_io.md: PRINT, PRINT_INT, INPUT, INPUT_INT. -/

namespace Sys2Proof.Machine

/-- R95: bits 7:0, as they are. -/
def execPrint (s : State) : Host.Outcome State Fault Refusal :=
  runInstr .print (fun s =>
    let (v, s₁) := pop s
    .done (out [BitVec.ofNat 8 v.toNat] s₁)) s

/-- R96: the decimal digits, then 0x0A. -/
def execPrintInt (s : State) : Host.Outcome State Fault Refusal :=
  runInstr .printInt (fun s =>
    let (v, s₁) := pop s
    .done (out (decimal v ++ [0x0A]) s₁)) s

/-- R97. -/
def execInput (s : State) : Host.Outcome State Fault Refusal :=
  runInstr .input (fun s => takeInput (scanByte s.inEnded (unread s)) s) s

/-- R98. -/
def execInputInt (s : State) : Host.Outcome State Fault Refusal :=
  runInstr .inputInt (fun s => takeInput (scanInt s.params.width s.inEnded (unread s)) s) s

end Sys2Proof.Machine
end

