-- ==== Sys2Proof/Machine/Logical.lean ====
section
/-! DEFINITION. 44_logical.md: AND, OR, XOR, NOT over non-zero-is-true words; both operands always popped. -/

namespace Sys2Proof.Machine

/-- R77. -/
def execAnd (s : State) : Host.Outcome State Fault Refusal :=
  binary .and (fun lhs rhs => .ok (boolWord (truthy lhs && truthy rhs))) s

/-- R78. -/
def execOr (s : State) : Host.Outcome State Fault Refusal :=
  binary .or (fun lhs rhs => .ok (boolWord (truthy lhs || truthy rhs))) s

/-- R79. -/
def execXor (s : State) : Host.Outcome State Fault Refusal :=
  binary .xor (fun lhs rhs => .ok (boolWord (truthy lhs != truthy rhs))) s

/-- R80. -/
def execNot (s : State) : Host.Outcome State Fault Refusal :=
  unary .not (fun v => boolWord (!truthy v)) s

end Sys2Proof.Machine
end

