-- ==== Sys2Proof/Machine/Stack.lean ====
section
/-! DEFINITION. 41_stack.md: PUSH, POP, DUP, SWAP, ROT. -/

namespace Sys2Proof.Machine

/-- R59. -/
def execPush (imm : Word) (s : State) : Host.Outcome State Fault Refusal :=
  runInstr .push (fun s => .done (push imm s)) s

/-- R60. -/
def execPop (s : State) : Host.Outcome State Fault Refusal :=
  runInstr .pop (fun s => .done (pop s).2) s

/-- R61. -/
def execDup (s : State) : Host.Outcome State Fault Refusal :=
  runInstr .dup (fun s =>
    let (v, s₁) := pop s
    .done (push v (push v s₁))) s

/-- R62. -/
def execSwap (s : State) : Host.Outcome State Fault Refusal :=
  runInstr .swap (fun s =>
    let (a, s₁) := pop s
    let (b, s₂) := pop s₁
    .done (push b (push a s₂))) s

/-- R63, by `ROT_MODE` (conflict C1). -/
def execRot (s : State) : Host.Outcome State Fault Refusal :=
  runInstr .rot (fun s =>
    let (c, s₁) := pop s
    let (b, s₂) := pop s₁
    let (a, s₃) := pop s₂
    match s.params.rotMode with
    | .bac => .done (push c (push a (push b s₃)))
    | .bca => .done (push a (push c (push b s₃)))) s

end Sys2Proof.Machine
end

