-- ==== Sys2Proof/Machine/Dispatch.lean ====
section
/-! DEFINITION. One arm for each instruction. -/

namespace Sys2Proof.Machine

/-- The depth check and the execution of one decoded instruction (R56, R57). It does not look at the status:
`step` does (log 15). -/
def exec (i : Instr) (s : State) : Host.Outcome State Fault Refusal :=
  match i with
  | .push imm => Sys2Proof.Machine.execPush imm s
  | .pop => Sys2Proof.Machine.execPop s
  | .dup => Sys2Proof.Machine.execDup s
  | .swap => Sys2Proof.Machine.execSwap s
  | .rot => Sys2Proof.Machine.execRot s
  | .add => Sys2Proof.Machine.execAdd s
  | .sub => Sys2Proof.Machine.execSub s
  | .mult => Sys2Proof.Machine.execMult s
  | .div => Sys2Proof.Machine.execDiv s
  | .mod => Sys2Proof.Machine.execMod s
  | .pow => Sys2Proof.Machine.execPow s
  | .eq => Sys2Proof.Machine.execEq s
  | .neq => Sys2Proof.Machine.execNeq s
  | .lt => Sys2Proof.Machine.execLt s
  | .lte => Sys2Proof.Machine.execLte s
  | .gt => Sys2Proof.Machine.execGt s
  | .gte => Sys2Proof.Machine.execGte s
  | .and => Sys2Proof.Machine.execAnd s
  | .or => Sys2Proof.Machine.execOr s
  | .xor => Sys2Proof.Machine.execXor s
  | .not => Sys2Proof.Machine.execNot s
  | .bitwiseAnd => Sys2Proof.Machine.execBitwiseAnd s
  | .bitwiseOr => Sys2Proof.Machine.execBitwiseOr s
  | .bitwiseXor => Sys2Proof.Machine.execBitwiseXor s
  | .bitwiseNot => Sys2Proof.Machine.execBitwiseNot s
  | .shiftLeft => Sys2Proof.Machine.execShiftLeft s
  | .shiftRight => Sys2Proof.Machine.execShiftRight s
  | .alloc imm => Sys2Proof.Machine.execAlloc imm s
  | .free => Sys2Proof.Machine.execFree s
  | .sto => Sys2Proof.Machine.execSto s
  | .ret => Sys2Proof.Machine.execRet s
  | .jmp imm => Sys2Proof.Machine.execJmp imm s
  | .jmpIfTrue imm => Sys2Proof.Machine.execJmpIfTrue imm s
  | .jmpIfFalse imm => Sys2Proof.Machine.execJmpIfFalse imm s
  | .print => Sys2Proof.Machine.execPrint s
  | .printInt => Sys2Proof.Machine.execPrintInt s
  | .input => Sys2Proof.Machine.execInput s
  | .inputInt => Sys2Proof.Machine.execInputInt s
  | .halt => Sys2Proof.Machine.execHalt s

end Sys2Proof.Machine
end

