-- ==== Sys2Proof/Machine/Step.lean ====
section
/-! DEFINITION. One step of the engine (R52 to R57), and how the host places one instruction. -/

namespace Sys2Proof.Machine

/-- R52 to R57: a running block fetches, decodes and executes one instruction; a fault is a next state
(log 3). A block that has stopped has no step (R52), nor has one held at an input instruction (R97; log 4). -/
def step (s : State) : Host.Outcome State Fault Refusal :=
  match s.status with
  | .halted => .fault .halted
  | .faulted r => .fault (.faulted r)
  | .running =>
    match fetch s with
    | .error c => .next (takeFault c s)
    | .ok i => exec i s

/-- The program with `bs` in place of the bytes at offset `a`; a body that ends before is filled with zeros
up to there, and the header's size says the new length (R115). -/
def Program.patch (a : Nat) (bs : List Byte) (prog : Program) : Program :=
  let body := prog.body.take a ++ List.replicate (a - prog.body.length) 0 ++ bs ++ prog.body.drop (a + bs.length)
  { header := { prog.header with bodySize := BitVec.ofNat 32 body.length }, body := body }

/-- The host's placing of one instruction of the opcode table at the pc, in a block that runs (log 8, log 17). -/
def State.withFetchWord (s : State) (nbits w : Nat) : State :=
  { s with
    program := s.program.patch s.pc.toNat (tableBytes nbits w (longest s.params.width))
    status := .running }

end Sys2Proof.Machine
end

