-- ==== Sys2Proof/Machine/Loader.lean ====
section
/-! DEFINITION. The host's side: the loader as far as the block sees it (R115 to R119) and the host's moves
while the block runs (R112). `step` takes none of these. -/

namespace Sys2Proof.Machine

/-! ## Loading -/

/-- R115: the ten bytes of a header, every field little-endian. -/
def encodeHeader (h : Header) : List Byte :=
  bytesOfWord 2 h.major.toNat ++ bytesOfWord 2 h.minor.toNat ++ bytesOfWord 2 h.patch.toNat ++
    bytesOfWord 4 h.bodySize.toNat

/-- R115: read a header; nothing where there are fewer than ten bytes. -/
def decodeHeader (image : List Byte) : Option (Header × List Byte) :=
  if image.length < 10 then none
  else some (⟨BitVec.ofNat 16 (wordOfBytes (image.take 2)),
    BitVec.ofNat 16 (wordOfBytes ((image.drop 2).take 2)),
    BitVec.ofNat 16 (wordOfBytes ((image.drop 4).take 2)),
    BitVec.ofNat 32 (wordOfBytes ((image.drop 6).take 4))⟩, image.drop 10)

/-- R117: the errors of loading. -/
inductive LoadError where
  | usageError
  | ioError
  | versionMismatch
  | versionTooNew
  | truncatedProgram
deriving DecidableEq, Repr

/-- R117: the codes. -/
def LoadError.code : LoadError → Nat
  | .usageError => 16
  | .ioError => 17
  | .versionMismatch => 18
  | .versionTooNew => 19
  | .truncatedProgram => 20

/-- What the host's loader is given: a bad command line, a file it cannot read, or an image. How the first
two come about is outside (R3). -/
inductive LoadRequest where
  | badCommandLine
  | unreadable
  | image (bytes : List Byte)
deriving DecidableEq, Repr

/-- What a load comes to: a block that starts (R119), or an error, and no instruction is executed. -/
inductive LoadResult where
  | started (s : State)
  | failed (e : LoadError)
deriving DecidableEq, Repr

/-- R116: the version check, major first; the patch is not checked. -/
def versionError (v : EngineVersion) (h : Header) : Option LoadError :=
  if h.major ≠ v.major then some .versionMismatch
  else if v.minor.toNat < h.minor.toNat then some .versionTooNew
  else none

/-- R115 to R119: read the header, check the version, read exactly `size` body bytes, and start the block.
Bytes after the body are not part of the program (R118). A short header is found before the version is checked
(DEDUCED, log 12). -/
def load (v : EngineVersion) (p : Params) : LoadRequest → LoadResult
  | .badCommandLine => .failed .usageError
  | .unreadable => .failed .ioError
  | .image bytes =>
    match decodeHeader bytes with
    | none => .failed .truncatedProgram
    | some (h, rest) =>
      match versionError v h with
      | some e => .failed e
      | none =>
        if rest.length < h.bodySize.toNat then .failed .truncatedProgram
        else .started (.start p ⟨h, rest.take h.bodySize.toNat⟩)

/-- R106, R117: the exit status of a load that failed. -/
def loadExitStatus : LoadResult → Option Nat
  | .started s => exitStatus s.status
  | .failed _ => some 1

/-! ## The host's moves while the block runs (R112) -/

/-- The host supplies bytes; after it has ended the stream it supplies none (DESIGN CHOICE, log 13). -/
def supplyInput (bs : List Byte) (s : State) : State :=
  if s.inEnded then s else { s with inStream := s.inStream ++ bs }

/-- The host ends the input stream. -/
def endInput (s : State) : State := { s with inEnded := true }

/-- R97, R98: the block is held: the instruction at the pc is an input instruction that passes the depth
check and waits for the host. Such a block has no step; `supplyInput` and `endInput` are what can lift the hold. -/
def held (s : State) : Bool :=
  match s.status, fetch s with
  | .running, .ok .input => (depthFault .input s).isNone && decide (scanByte s.inEnded (unread s) = .wait)
  | .running, .ok .inputInt =>
    (depthFault .inputInt s).isNone && decide (scanInt s.params.width s.inEnded (unread s) = .wait)
  | _, _ => false

end Sys2Proof.Machine
end

