-- ==== Sys2Proof/Safety.lean ====
section
/-! DEFINITION. The terms claims are stated in: the live stack, the invariant every step keeps, runs and
their ends. -/

namespace Sys2Proof.Machine

/-- The words on the stack, bottom to top: the slots below `sp` (R15). The stack pictures of the instruction
rules (`... lhs rhs`) are pictures of this list. -/
def State.live (s : State) : List Word := s.stk.take s.sp

/-- The invariant of the machine: what holds at reset and after every step (R12 to R23, R30, R35, R102). -/
structure State.Inv (s : State) : Prop where
  /-- R5: the parameters lie in their ranges -/
  params_ok : s.params.Ok
  /-- R20, R115: the header's size is the body's length -/
  size_eq : s.program.header.bodySize.toNat = s.program.body.length
  /-- R14: the pc is a word -/
  pc_fits : s.params.width.fits s.pc
  /-- R15: there are `STACK_CAP` slots -/
  stk_length : s.stk.length = s.params.stackCap
  /-- R15: the stack pointer lies in `[0, STACK_CAP]` -/
  sp_le : s.sp ≤ s.params.stackCap
  /-- R4: every slot holds a word -/
  stk_fits : ∀ v ∈ s.stk, s.params.width.fits v
  /-- R35, log 10: the heap is in its canonical form -/
  heap_wf : Memory.wf s.params.width s.heap
  /-- R22: no more bytes are taken than the host supplied -/
  inPos_le : s.inPos ≤ s.inStream.length
  /-- R102, R104: a fault leaves the pc at the instruction that faulted -/
  faultPc_eq : ∀ r, s.status = .faulted r → r.faultPc = s.pc

/-- R58: a run has ended when the status is no longer `Running`. -/
def State.ended (s : State) : Bool := decide (s.status ≠ .running)

/-- A safe state: no fault has been taken. -/
def State.safe (s : State) : Prop := ∀ r, s.status ≠ .faulted r

/-- `t` is reached from `s` by steps. -/
inductive Reaches : State → State → Prop where
  | refl (s : State) : Reaches s s
  | tail {s t u : State} : Reaches s t → step t = .next u → Reaches s u

/-- Run instructions one after another, fetched from nowhere: what the same instructions do in a body is
the same step by step. -/
def execAll : List Instr → State → Host.Outcome State Fault Refusal
  | [], s => .next s
  | i :: rest, s =>
    match exec i s with
    | .next t => execAll rest t
    | .fault r => .fault r
    | .refused r => .refused r

end Sys2Proof.Machine
end

