-- ==== Sys2Proof/Certificates/Slice0/Obligations.lean ====
section
/-! DEFINITION. The statements for the provers. The predicates under `Sys2Proof.Claims` say, in the spec's own
terms (stack pictures, words as numbers modulo `2^W`, word-valid addresses), what an instruction leaves; they use
none of the model's operations but `exec`, `step`, `decode`, `encode`, `State.live` and `Memory.read`. -/

namespace Sys2Proof.Claims

open Sys2Proof.Machine

/-- `exec i s` takes the fault `c`: the record is written, and nothing else changes (R9, R104). -/
def FaultsWith (i : Instr) (s : State) (c : FaultCause) : Prop :=
  exec i s = .next { s with status := .faulted ⟨c, s.pc⟩ }

/-- R15: `STACK_CAP` slots, and `sp` in `[0, STACK_CAP]`: two clauses of `State.Inv`. -/
def Stacked (s : State) : Prop := s.stk.length = s.params.stackCap ∧ s.sp ≤ s.params.stackCap

/-- R57: the pc has moved on by `len` (modulo `2^W`; a fetched instruction never wraps it, R14, log 16). -/
def PcMoved (s t : State) (len : Nat) : Prop := t.pc.toNat = (s.pc.toNat + len) % 2 ^ s.params.width.bits

/-- `exec i s` completes with the live stack `after` and the pc moved by `len`; the frame: every other field,
the heap, the streams, the status among them, is as it was. -/
def StackResult (i : Instr) (s : State) (len : Nat) (after : List Word) : Prop :=
  ∃ t, exec i s = .next t ∧ t.live = after ∧ t.sp = after.length ∧ PcMoved s t len ∧
    t = { s with stk := t.stk, sp := t.sp, pc := t.pc }

/-- The rule of a binary instruction that cannot fault by itself: encoding, `... lhs rhs -> ... f lhs rhs`,
underflow. -/
def BinaryRule (i : Instr) (byte : Byte) (f : Width → Word → Word → Word) : Prop :=
  encode .default i = [byte] ∧
  (∀ s below lhs rhs, Stacked s → s.live = below ++ [lhs, rhs] →
    StackResult i s 1 (below ++ [f s.params.width lhs rhs])) ∧
  (∀ s, s.sp < 2 → FaultsWith i s (.stackUnderflow i.mnemonic s.sp))

/-- The rule of a binary instruction with a fault `c` of its own where `ok` fails. -/
def GuardedBinaryRule (i : Instr) (byte : Byte) (ok : Width → Word → Word → Prop)
    (f : Width → Word → Word → Word) (c : Word → Word → FaultCause) : Prop :=
  encode .default i = [byte] ∧
  (∀ s below lhs rhs, Stacked s → s.live = below ++ [lhs, rhs] → ok s.params.width lhs rhs →
    StackResult i s 1 (below ++ [f s.params.width lhs rhs])) ∧
  (∀ s below lhs rhs, Stacked s → s.live = below ++ [lhs, rhs] → ¬ ok s.params.width lhs rhs →
    FaultsWith i s (c lhs rhs)) ∧
  (∀ s, s.sp < 2 → FaultsWith i s (.stackUnderflow i.mnemonic s.sp))

/-- The rule of a unary instruction on words of `W` bits: `... v -> ... f v`. -/
def UnaryRule (i : Instr) (byte : Byte) (f : Width → Word → Word) : Prop :=
  encode .default i = [byte] ∧
  (∀ s below v, Stacked s → s.live = below ++ [v] → s.params.width.fits v →
    StackResult i s 1 (below ++ [f s.params.width v])) ∧
  (∀ s, s.sp < 1 → FaultsWith i s (.stackUnderflow i.mnemonic s.sp))

/-- The word of an exact integer modulo `2^W` (R11). -/
def mod2W (w : Width) (x : Int) : Word := BitVec.ofInt 64 (x % 2 ^ w.bits)

/-- R10: the word of a Boolean result. -/
def truth (c : Prop) [Decidable c] : Word := if c then 1 else 0

/-- R43: the bytes of an `FI` instruction at `W = 64`. -/
def bytesFI (byte : Byte) (imm : Word) : List Byte :=
  byte :: (List.range 8).map fun j => BitVec.ofNat 8 (imm.toNat / 2 ^ (8 * j))

/-- R30: word `k` of some live block is at `a`. -/
def WordValid (w : Width) (a : Word) (m : Memory) : Prop :=
  ∃ c ∈ m, ∃ k < c.words, a.toNat = c.base.toNat + k * w.bytes

/-- R35: what a base for `n` words must meet. -/
def Admissible (w : Width) (n : Nat) (b : Word) (m : Memory) : Prop :=
  b.toNat ≠ 0 ∧ b.toNat % w.bytes = 0 ∧ b.toNat + max n 1 * w.bytes ≤ 2 ^ w.bits ∧
  ∀ c ∈ m, b.toNat + max n 1 * w.bytes ≤ c.base.toNat ∨ c.base.toNat + max c.words 1 * w.bytes ≤ b.toNat

/-- R87: `ALLOC imm` has added a block of `Uninit` words at `b` and pushed `b`; every address outside the block
reads as before. -/
def Allocated (imm b : Word) (s t : State) : Prop :=
  t.live = s.live ++ [b] ∧ t.sp = s.sp + 1 ∧ PcMoved s t (1 + s.params.width.bytes) ∧
  (∀ c, c ∈ t.heap ↔ c = ⟨b, imm.toNat, []⟩ ∨ c ∈ s.heap) ∧
  (∀ a : Word, ∀ k < imm.toNat, a.toNat = b.toNat + k * s.params.width.bytes →
    Memory.read s.params.width a t.heap = .uninit) ∧
  (∀ a : Word, (∀ k < imm.toNat, a.toNat ≠ b.toNat + k * s.params.width.bytes) →
    Memory.read s.params.width a t.heap = Memory.read s.params.width a s.heap) ∧
  t.allocDraws = s.allocDraws + 1 ∧
  t = { s with stk := t.stk, sp := t.sp, pc := t.pc, heap := t.heap, allocDraws := t.allocDraws }

/-- R98: white space. -/
def White (b : Byte) : Prop := b.toNat = 0x20 ∨ (0x09 ≤ b.toNat ∧ b.toNat ≤ 0x0D)

/-- R98: a digit. -/
def Digit (b : Byte) : Prop := 0x30 ≤ b.toNat ∧ b.toNat ≤ 0x39

/-- R98: the number a digit string stands for, most significant digit first. -/
def numberOf (ds : List Byte) : Nat := Nat.ofDigits 10 (ds.reverse.map fun d => d.toNat - 0x30)

/-- The rows of R50 that share a signature. -/
def rows (pops pushes : Nat) (ms : List Mnemonic) : List (Mnemonic × Nat × Nat) := ms.map fun m => (m, pops, pushes)

/-- The table of R50: mnemonic, pops, pushes. -/
def signatures : List (Mnemonic × Nat × Nat) :=
  List.flatten [
    rows 0 0 [.jmp, .halt],
    rows 0 1 [.push, .alloc, .input, .inputInt],
    rows 1 0 [.pop, .free, .jmpIfTrue, .jmpIfFalse, .print, .printInt],
    rows 1 1 [.not, .bitwiseNot, .ret],
    rows 1 2 [.dup],
    rows 2 0 [.sto],
    rows 2 1 [.add, .sub, .mult, .div, .mod, .pow, .eq, .neq, .lt, .lte, .gt, .gte],
    rows 2 1 [.and, .or, .xor, .bitwiseAnd, .bitwiseOr, .bitwiseXor, .shiftLeft, .shiftRight],
    rows 2 2 [.swap],
    rows 3 3 [.rot]]

/-- R27: the little-endian value of `n` body bytes from offset `a`. -/
def littleEndian (body : List Byte) (a n : Nat) : Nat :=
  ((List.range n).map fun j => (body.getD (a + j) 0).toNat * 2 ^ (8 * j)).sum

/-- A block that runs and has this byte at its pc. -/
def AtByte (s : State) (b : Byte) : Prop := s.status = .running ∧ s.program.body[s.pc.toNat]? = some b

/-- R55 for one `FI` opcode: its step faults where the immediate runs past the body. -/
def ImmediateChecked (m : Mnemonic) : Prop :=
  ∀ s : State, s.params.Ok → AtByte s (opcodeOf s.params.opcodeMap m) →
    s.program.body.length < s.pc.toNat + 1 + s.params.width.bytes →
    step s = .next { s with status := .faulted ⟨.programOutOfBounds s.pc (1 + s.params.width.bytes), s.pc⟩ }

/-- R101: the faults an instruction raises by itself, beyond the depth check. -/
def OwnFault (s : State) : Instr → FaultCause → Prop
  | .div, c | .mod, c => ∃ lhs, c = .divisionByZero lhs
  | .pow, c => s.params.powWide = .fault ∧ ∃ lhs rhs, c = .powOutOfRange lhs rhs
  | .shiftLeft, c | .shiftRight, c => ∃ amount, c = .invalidShift amount ∧ s.params.width.bits ≤ amount.toNat
  | .alloc n, c => c = .allocationFailed n
  | .free, c => ∃ a, c = .invalidFree a
  | .sto, c => ∃ a, c = .invalidMemoryAccess a .unmapped
  | .ret, c => ∃ a reason, c = .invalidMemoryAccess a reason
  | .input, c => c = .inputError .endOfInput
  | .inputInt, c => ∃ reason, c = .inputError reason
  | .push _, _ | .pop, _ | .dup, _ | .swap, _ | .rot, _ => False
  | .add, _ | .sub, _ | .mult, _ => False
  | .eq, _ | .neq, _ | .lt, _ | .lte, _ | .gt, _ | .gte, _ => False
  | .and, _ | .or, _ | .xor, _ | .not, _ => False
  | .bitwiseAnd, _ | .bitwiseOr, _ | .bitwiseXor, _ | .bitwiseNot, _ => False
  | .jmp _, _ | .jmpIfTrue _, _ | .jmpIfFalse _, _ => False
  | .print, _ | .printInt, _ | .halt, _ => False

/-- R17: two states that differ at most in slots at or above the stack pointer. -/
def SameButDeadSlots (s t : State) : Prop :=
  t.live = s.live ∧ t.stk.length = s.stk.length ∧ t = { s with stk := t.stk }

end Sys2Proof.Claims

open Sys2Proof Sys2Proof.Machine Sys2Proof.Claims

/-! ## Encoding and decoding -/

/-- R42 to R46, R49: decoding an encoded instruction gives it back, with every value of its immediate, under
every admissible `OPCODE_MAP` and both widths, and leaves the bytes after it. -/
def Obligations.DecodeOfEncode : Prop :=
  ∀ (p : Params) (i : Instr) (rest : List Byte), p.Ok → i.wf p.width = true →
    decode p (encode p i ++ rest) = .ok (i, rest)

/-- R43, R44, R54: what decodes is well-formed, and its encoding is the bytes it was read from. -/
def Obligations.EncodeOfDecode : Prop :=
  ∀ (p : Params) (bytes : List Byte) (i : Instr) (rest : List Byte), decode p bytes = .ok (i, rest) →
    i.wf p.width = true ∧ encode p i ++ rest = bytes

/-- R45, R43: words written out from the default opcode map and the two formats, one for each family. -/
def Obligations.SampleWordsDecode : Prop :=
  decode .default [0x00, 0xEF, 0xCD, 0xAB, 0x89, 0x67, 0x45, 0x23, 0x01, 0x26] = .ok (.push 0x0123456789ABCDEF, [0x26]) ∧
  decode { Params.default with width := .w32 } [0x00, 0x78, 0x56, 0x34, 0x12, 0x26] = .ok (.push 0x12345678, [0x26]) ∧
  decode .default [0x06] = .ok (.sub, []) ∧
  decode .default [0x0D] = .ok (.lt, []) ∧
  decode .default [0x13] = .ok (.xor, []) ∧
  decode .default [0x1A] = .ok (.shiftRight, []) ∧
  decode .default [0x1B, 0x02, 0, 0, 0, 0, 0, 0, 0] = .ok (.alloc 2, []) ∧
  decode .default [0x20, 0x1D, 0, 0, 0, 0, 0, 0, 0] = .ok (.jmpIfTrue 29, []) ∧
  decode .default [0x25] = .ok (.inputInt, []) ∧
  decode .default [0x26] = .ok (.halt, []) ∧
  decode .default [0x99] = .error (.unknownOpcode 0x99)

/-- R46, R49: the length is `1 + WB` for the five opcodes with an immediate and 1 for every other. -/
def Obligations.LengthByOpcode : Prop :=
  ∀ (p : Params) (bytes : List Byte) (i : Instr) (rest : List Byte), decode p bytes = .ok (i, rest) →
    bytes.length = rest.length +
      (if i.mnemonic ∈ [.push, .alloc, .jmp, .jmpIfTrue, .jmpIfFalse] then 1 + p.width.bytes else 1)

/-- R27, R44: the immediate is the `WB` bytes after the opcode, little-endian, and `FetchWord` reads such a word
where the body holds all of it and nothing where it does not. -/
def Obligations.ImmediateIsLittleEndian : Prop :=
  (∀ (s : State) (i : Instr) (imm : Word), fetch s = .ok i → i.immediate = some imm →
    imm.toNat = littleEndian s.program.body (s.pc.toNat + 1) s.params.width.bytes) ∧
  (∀ (s : State) (a : Word), a.toNat + s.params.width.bytes ≤ s.program.body.length →
    ∃ v, fetchWord s a = some v ∧ v.toNat = littleEndian s.program.body a.toNat s.params.width.bytes) ∧
  (∀ (s : State) (a : Word), s.program.body.length < a.toNat + s.params.width.bytes → fetchWord s a = none)

/-- R47: every byte outside the opcode map is illegal, 0x99 under every admissible map, and under the default
map exactly 0x27 to 0xFF. -/
def Obligations.IllegalBytesFault : Prop :=
  (∀ (s : State) (b : Byte), AtByte s b → (∀ m, opcodeOf s.params.opcodeMap m ≠ b) →
    step s = .next { s with status := .faulted ⟨.unknownOpcode b, s.pc⟩ }) ∧
  (∀ s : State, AtByte s 0x99 → s.params.Ok →
    step s = .next { s with status := .faulted ⟨.unknownOpcode 0x99, s.pc⟩ }) ∧
  (∀ b : Byte, (∀ m, opcodeOf Params.default.opcodeMap m ≠ b) ↔ 0x27 ≤ b.toNat)

/-! ## The engine -/

/-- R52 to R57: when the bytes at the pc decode to an instruction, a step of a running block is `exec` of it. -/
def Obligations.StepRunsDecodedInstruction : Prop :=
  ∀ (s : State) (i : Instr) (rest : List Byte), s.status = .running →
    decode s.params (s.program.body.drop s.pc.toNat) = .ok (i, rest) → step s = exec i s

/-- R52: a step exists only in a running block, and a stopped block is stopped for good. -/
def Obligations.StoppedBlockHasNoStep : Prop :=
  ∀ s : State, s.status ≠ .running → ∀ t, step s ≠ .next t

/-- R52, R57, R97: whatever the state and the bytes hold, a running block has a step, unless it is held at an input
instruction that waits for the host, and then it has none. -/
def Obligations.RunningBlockStepsUnlessHeld : Prop :=
  ∀ s : State, s.status = .running →
    (held s = false → ∃ t, step s = .next t) ∧ (held s = true → ∀ t, step s ≠ .next t)

/-- R53: a fetch at or past the end of the body faults, wherever the pc came from. -/
def Obligations.FetchPastBodyFaults : Prop :=
  ∀ s : State, s.status = .running → s.program.body.length ≤ s.pc.toNat →
    step s = .next { s with status := .faulted ⟨.programOutOfBounds s.pc 1, s.pc⟩ }

/-- R55: the immediate of every `FI` opcode is checked, a conditional jump's too, taken or not, before anything
else; where it is there, the instruction runs with it. -/
def Obligations.ImmediatePastBodyFaults : Prop :=
  ∀ (s : State) (m : Mnemonic), s.params.Ok → AtByte s (opcodeOf s.params.opcodeMap m) →
    m ∈ [Mnemonic.push, .alloc, .jmp, .jmpIfTrue, .jmpIfFalse] →
    (s.program.body.length < s.pc.toNat + 1 + s.params.width.bytes →
      step s = .next { s with status := .faulted ⟨.programOutOfBounds s.pc (1 + s.params.width.bytes), s.pc⟩ }) ∧
    (s.pc.toNat + 1 + s.params.width.bytes ≤ s.program.body.length →
      ∃ i imm, i.mnemonic = m ∧ i.immediate = some imm ∧
        imm.toNat = littleEndian s.program.body (s.pc.toNat + 1) s.params.width.bytes ∧ step s = exec i s)

/-- R50, R56: the depth check of every instruction, by the signature table of R50. -/
def Obligations.DepthCheckBySignature : Prop :=
  ∀ (i : Instr) (s : State), ∃ pops pushes, (i.mnemonic, pops, pushes) ∈ signatures ∧
    (∀ p q, (i.mnemonic, p, q) ∈ signatures → p = pops ∧ q = pushes) ∧
    (s.sp < pops → FaultsWith i s (.stackUnderflow i.mnemonic s.sp)) ∧
    (pops ≤ s.sp → s.params.stackCap < s.sp - pops + pushes → FaultsWith i s (.stackOverflow i.mnemonic s.sp))

/-- R101, R56, R103: what faults an instruction can take: the depth check's, each exactly where its condition holds,
or, where the depth check passes, the instruction's own; arithmetic wrap-around, comparisons and logic never fault. -/
def Obligations.FaultKindsByInstruction : Prop :=
  ∀ (i : Instr) (s t : State) (r : FaultRecord) (pops pushes : Nat), s.status = .running → exec i s = .next t →
    t.status = .faulted r → (i.mnemonic, pops, pushes) ∈ signatures →
    (s.sp < pops ∧ r.cause = .stackUnderflow i.mnemonic s.sp) ∨
    (pops ≤ s.sp ∧ s.params.stackCap < s.sp - pops + pushes ∧ r.cause = .stackOverflow i.mnemonic s.sp) ∨
    (pops ≤ s.sp ∧ s.sp - pops + pushes ≤ s.params.stackCap ∧ OwnFault s i r.cause)

/-- R9, R100, R102, R104: a step that faults changes the status alone, the record names the pc, and no step follows. -/
def Obligations.FaultsArePrecise : Prop :=
  ∀ (s t : State) (r : FaultRecord), s.status = .running → step s = .next t → t.status = .faulted r →
    t = { s with status := .faulted r } ∧ r.faultPc = s.pc ∧ ∀ u, step t ≠ .next u

/-- R12 to R22, R30, R35, R102: the invariant of the machine is kept by every step, from every state that has it. -/
def Obligations.EveryStepKeepsInvariant : Prop :=
  ∀ s t : State, s.Inv → step s = .next t → t.Inv

/-- The invariant holds at reset, and at the start of every program whose header gives its body's length, under
admissible parameters. (The parameters, the empty program and the zero slots of reset are the model's choice, logs 1,
7 and 8.) -/
def Obligations.InvariantHoldsAtReset : Prop :=
  State.reset.Inv ∧
  ∀ (p : Params) (g : Program), p.Ok → g.header.bodySize.toNat = g.body.length → (State.start p g).Inv

/-- R112: the host's two moves keep the invariant (bytes after the end are ignored: the model's choice, log 13). -/
def Obligations.HostMovesKeepInvariant : Prop :=
  ∀ (s : State) (bs : List Byte), s.Inv → (supplyInput bs s).Inv ∧ (endInput s).Inv

/-- R13: only `HALT` and faults write the status, and it starts as `Running`. -/
def Obligations.OnlyHaltAndFaultsWriteStatus : Prop :=
  State.reset.status = .running ∧
  (∀ s t : State, step s = .next t → t.status = .running ∨
    (t.status = .halted ∧ fetch s = .ok .halt) ∨ ∃ r, t.status = .faulted r) ∧
  (∀ s t : State, s.status ≠ .running → step s ≠ .next t)

/-- R12, R20: no step writes the parameters or the program. -/
def Obligations.ConfigurationIsFixed : Prop :=
  ∀ s t : State, step s = .next t → t.params = s.params ∧ t.program = s.program

/-- R22: only PRINT and PRINT_INT append output, nothing removes any, only INPUT and INPUT_INT take input, and no
instruction changes what the host supplied. -/
def Obligations.StreamsChangeOnlyByTheirInstructions : Prop :=
  ∀ (i : Instr) (s t : State), exec i s = .next t →
    s.outHist <+: t.outHist ∧ s.inPos ≤ t.inPos ∧ t.inStream = s.inStream ∧ t.inEnded = s.inEnded ∧
    (i ≠ .print → i ≠ .printInt → t.outHist = s.outHist) ∧
    (i ≠ .input → i ≠ .inputInt → t.inPos = s.inPos)

/-- R21, R37: only ALLOC, FREE and STO change the heap; no other instruction changes what any address reads. -/
def Obligations.HeapChangesOnlyByItsInstructions : Prop :=
  ∀ (i : Instr) (s t : State), exec i s = .next t → (∀ n, i ≠ .alloc n) → i ≠ .free → i ≠ .sto →
    t.heap = s.heap ∧ t.allocDraws = s.allocDraws ∧ t.allocScript = s.allocScript ∧
    ∀ a : Word, Memory.read s.params.width a t.heap = Memory.read s.params.width a s.heap

/-- R16, R17, R50: an instruction writes only the slots its signature names; a popped slot keeps its value. -/
def Obligations.OnlySignatureSlotsAreWritten : Prop :=
  ∀ (i : Instr) (s t : State) (pops pushes k : Nat), exec i s = .next t →
    (i.mnemonic, pops, pushes) ∈ signatures → k < s.sp - pops ∨ s.sp - pops + pushes ≤ k →
    t.stk[k]? = s.stk[k]?

/-- R17: slots at or above the stack pointer cannot be observed: two states that differ in nothing else step alike,
to states that again differ in nothing else, or stop alike; and a pop does not clear the slot it reads. -/
def Obligations.DeadSlotsAreUnobservable : Prop :=
  (∀ s s' t : State, SameButDeadSlots s s' → step s = .next t → ∃ t', step s' = .next t' ∧ SameButDeadSlots t t') ∧
  (∀ s s' : State, SameButDeadSlots s s' → (∀ t, step s ≠ .next t) → step s' = step s) ∧
  (∀ s t : State, exec .pop s = .next t → t.stk = s.stk)

/-- R14: the sequential successor of a fetched instruction stays within the body, so the pc never wraps. -/
def Obligations.FetchedSuccessorDoesNotWrap : Prop :=
  ∀ (s : State) (i : Instr), s.Inv → fetch s = .ok i →
    s.pc.toNat + (if i.immediate.isSome then 1 + s.params.width.bytes else 1) ≤ s.program.body.length ∧
    s.program.body.length < 2 ^ s.params.width.bits

/-- R99, R106: a run ends with exit status 0 exactly by executing HALT, and with 1 by a fault; while it has not
ended there is no exit status. -/
def Obligations.ExitStatusOfEndedRun : Prop :=
  ∀ s t : State, s.Inv → s.status = .running → step s = .next t →
    (exitStatus t.status = some 0 ↔ fetch s = .ok .halt) ∧
    (exitStatus t.status = some 1 ↔ ∃ r, t.status = .faulted r) ∧
    (exitStatus t.status = none ↔ t.status = .running)

/-! ## Stack instructions -/

/-- R59: PUSH pushes its immediate, whatever word it is, and moves the pc by `1 + WB`. -/
def Obligations.PushRule : Prop :=
  (∀ imm, encode .default (.push imm) = bytesFI 0x00 imm) ∧
  (∀ s imm, Stacked s → s.sp < s.params.stackCap →
    StackResult (.push imm) s (1 + s.params.width.bytes) (s.live ++ [imm])) ∧
  (∀ s imm, s.sp = s.params.stackCap → FaultsWith (.push imm) s (.stackOverflow .push s.sp)) ∧
  ImmediateChecked .push

/-- R60, R61, R62: POP, DUP and SWAP; a popped slot keeps its value, and for `1 <= sp < STACK_CAP` the sequence
`DUP, POP, POP` leaves what `POP` leaves, but for the pc and the dead slots (R61, corner cases). -/
def Obligations.PopDupSwapRules : Prop :=
  (encode .default .pop = [0x01] ∧ encode .default .dup = [0x02] ∧ encode .default .swap = [0x03]) ∧
  (∀ s below v, Stacked s → s.live = below ++ [v] → StackResult .pop s 1 below) ∧
  (∀ s t, exec .pop s = .next t → t.stk = s.stk) ∧
  (∀ s, s.sp = 0 → FaultsWith .pop s (.stackUnderflow .pop 0)) ∧
  (∀ s below v, Stacked s → s.live = below ++ [v] → s.sp < s.params.stackCap →
    StackResult .dup s 1 (below ++ [v, v])) ∧
  (∀ s, s.sp = 0 → FaultsWith .dup s (.stackUnderflow .dup 0)) ∧
  (∀ s, 0 < s.sp → s.sp = s.params.stackCap → FaultsWith .dup s (.stackOverflow .dup s.sp)) ∧
  (∀ s below b a, Stacked s → s.live = below ++ [b, a] → StackResult .swap s 1 (below ++ [a, b])) ∧
  (∀ s, s.sp < 2 → FaultsWith .swap s (.stackUnderflow .swap s.sp)) ∧
  (∀ s, Stacked s → 1 ≤ s.sp → s.sp < s.params.stackCap →
    ∃ t u, execAll [.dup, .pop, .pop] s = .next t ∧ exec .pop s = .next u ∧ t.live = u.live ∧
      t = { u with stk := t.stk, pc := t.pc })

/-- R63, both values of `ROT_MODE`; two `ROT`s restore the stack under `BAC`, three under `BCA` (corner cases). -/
def Obligations.RotRule : Prop :=
  encode .default .rot = [0x04] ∧
  (∀ s below a b c, Stacked s → s.live = below ++ [a, b, c] → s.params.rotMode = .bac →
    StackResult .rot s 1 (below ++ [b, a, c])) ∧
  (∀ s below a b c, Stacked s → s.live = below ++ [a, b, c] → s.params.rotMode = .bca →
    StackResult .rot s 1 (below ++ [b, c, a])) ∧
  (∀ s, s.sp < 3 → FaultsWith .rot s (.stackUnderflow .rot s.sp)) ∧
  (∀ s, Stacked s → 3 ≤ s.sp → s.params.rotMode = .bac →
    ∃ t, execAll [.rot, .rot] s = .next t ∧ t.live = s.live) ∧
  (∀ s, Stacked s → 3 ≤ s.sp → s.params.rotMode = .bca →
    ∃ t, execAll [.rot, .rot, .rot] s = .next t ∧ t.live = s.live)

/-- R16, R39: pushes come off in reverse order, whatever their number, as long as they fit: pushing words and
printing as many emits their low bytes last first, and leaves the stack as it was. -/
def Obligations.StackIsLastInFirstOut : Prop :=
  ∀ (s : State) (ws : List Word), Stacked s → s.sp + ws.length ≤ s.params.stackCap →
    ∃ t, execAll (ws.map .push ++ List.replicate ws.length .print) s = .next t ∧ t.live = s.live ∧
      t.sp = s.sp ∧ t.outHist = s.outHist ++ ws.reverse.map fun v => BitVec.ofNat 8 (v.toNat % 256)

/-! ## Arithmetic -/

/-- R65, R66, R67: wrapping addition, subtraction and multiplication. -/
def Obligations.WrappingArithmeticRules : Prop :=
  BinaryRule .add 0x05 (fun w lhs rhs => mod2W w ((lhs.toNat : Int) + rhs.toNat)) ∧
  BinaryRule .sub 0x06 (fun w lhs rhs => mod2W w ((lhs.toNat : Int) - rhs.toNat)) ∧
  BinaryRule .mult 0x07 (fun w lhs rhs => mod2W w ((lhs.toNat : Int) * rhs.toNat))

/-- R68, R69: unsigned quotient and remainder; a divisor of 0 faults with the stack as it was. -/
def Obligations.DivisionRules : Prop :=
  GuardedBinaryRule .div 0x08 (fun _ _ rhs => rhs.toNat ≠ 0)
    (fun w lhs rhs => mod2W w ((lhs.toNat / rhs.toNat : Nat) : Int)) (fun lhs _ => .divisionByZero lhs) ∧
  GuardedBinaryRule .mod 0x09 (fun _ _ rhs => rhs.toNat ≠ 0)
    (fun w lhs rhs => mod2W w ((lhs.toNat % rhs.toNat : Nat) : Int)) (fun lhs _ => .divisionByZero lhs)

/-- R70: the exact power below `2^min(W, 53)`; at or above it the fault, or the value of `POW_WIDE = Value(f)`. That
`f` is the free value `Config.powWideValue` narrowed modulo `2^W` is the model's choice (DESIGN CHOICE, log 6); the
statement holds whatever that value is. -/
def Obligations.PowRule : Prop :=
  encode .default .pow = [0x0A] ∧
  (∀ s below lhs rhs, Stacked s → s.live = below ++ [lhs, rhs] →
    lhs.toNat ^ rhs.toNat < 2 ^ min s.params.width.bits 53 →
    StackResult .pow s 1 (below ++ [BitVec.ofNat 64 (lhs.toNat ^ rhs.toNat)])) ∧
  (∀ s below lhs rhs, Stacked s → s.live = below ++ [lhs, rhs] →
    2 ^ min s.params.width.bits 53 ≤ lhs.toNat ^ rhs.toNat → s.params.powWide = .fault →
    FaultsWith .pow s (.powOutOfRange lhs rhs)) ∧
  (∀ s below lhs rhs, Stacked s → s.live = below ++ [lhs, rhs] →
    2 ^ min s.params.width.bits 53 ≤ lhs.toNat ^ rhs.toNat → s.params.powWide = .value →
    StackResult .pow s 1 (below ++ [mod2W s.params.width (Config.powWideValue s.params.width lhs rhs).toNat])) ∧
  (∀ s, s.sp < 2 → FaultsWith .pow s (.stackUnderflow .pow s.sp))

/-! ## Comparison, logic, bits -/

/-- R71 to R76: unsigned comparisons push 1 or 0. -/
def Obligations.ComparisonRules : Prop :=
  BinaryRule .eq 0x0B (fun _ lhs rhs => truth (lhs.toNat = rhs.toNat)) ∧
  BinaryRule .neq 0x0C (fun _ lhs rhs => truth (lhs.toNat ≠ rhs.toNat)) ∧
  BinaryRule .lt 0x0D (fun _ lhs rhs => truth (lhs.toNat < rhs.toNat)) ∧
  BinaryRule .lte 0x0E (fun _ lhs rhs => truth (lhs.toNat ≤ rhs.toNat)) ∧
  BinaryRule .gt 0x0F (fun _ lhs rhs => truth (lhs.toNat > rhs.toNat)) ∧
  BinaryRule .gte 0x10 (fun _ lhs rhs => truth (lhs.toNat ≥ rhs.toNat))

/-- R77 to R80: non-zero is true, the result is 1 or 0. -/
def Obligations.LogicalRules : Prop :=
  BinaryRule .and 0x11 (fun _ lhs rhs => truth (lhs.toNat ≠ 0 ∧ rhs.toNat ≠ 0)) ∧
  BinaryRule .or 0x12 (fun _ lhs rhs => truth (lhs.toNat ≠ 0 ∨ rhs.toNat ≠ 0)) ∧
  BinaryRule .xor 0x13 (fun _ lhs rhs => truth ((lhs.toNat = 0) ≠ (rhs.toNat = 0))) ∧
  UnaryRule .not 0x14 (fun _ v => truth (v.toNat = 0))

/-- R81 to R84. -/
def Obligations.BitwiseRules : Prop :=
  BinaryRule .bitwiseAnd 0x15 (fun _ lhs rhs => BitVec.ofNat 64 (lhs.toNat &&& rhs.toNat)) ∧
  BinaryRule .bitwiseOr 0x16 (fun _ lhs rhs => BitVec.ofNat 64 (lhs.toNat ||| rhs.toNat)) ∧
  BinaryRule .bitwiseXor 0x17 (fun _ lhs rhs => BitVec.ofNat 64 (lhs.toNat ^^^ rhs.toNat)) ∧
  UnaryRule .bitwiseNot 0x18 (fun w v => BitVec.ofNat 64 (2 ^ w.bits - 1 - v.toNat))

/-- R85, R86: logical shifts; an amount of `W` or more faults with the stack as it was. -/
def Obligations.ShiftRules : Prop :=
  GuardedBinaryRule .shiftLeft 0x19 (fun w _ rhs => rhs.toNat < w.bits)
    (fun w lhs rhs => mod2W w ((lhs.toNat * 2 ^ rhs.toNat : Nat) : Int)) (fun _ rhs => .invalidShift rhs) ∧
  GuardedBinaryRule .shiftRight 0x1A (fun w _ rhs => rhs.toNat < w.bits)
    (fun w lhs rhs => mod2W w ((lhs.toNat / 2 ^ rhs.toNat : Nat) : Int)) (fun _ rhs => .invalidShift rhs)

/-! ## Heap -/

/-- R87, R35: ALLOC where the oracle (its script, the model's form of it, log 5) answers an admissible base, where it
answers `Fail`, where no base can do whatever it answers, and where the stack is full; its immediate is checked. -/
def Obligations.AllocRule : Prop :=
  (∀ imm, encode .default (.alloc imm) = bytesFI 0x1B imm) ∧
  (∀ s imm b, Stacked s → s.sp < s.params.stackCap → s.allocScript[s.allocDraws]? = some (.base b) →
    Admissible s.params.width imm.toNat b s.heap →
    ∃ t, exec (.alloc imm) s = .next t ∧ Allocated imm b s t) ∧
  (∀ s imm, Stacked s → s.sp < s.params.stackCap → s.allocScript[s.allocDraws]? = some .fail →
    FaultsWith (.alloc imm) s (.allocationFailed imm)) ∧
  (∀ s imm, Stacked s → s.sp < s.params.stackCap →
    2 ^ s.params.width.bits ≤ max imm.toNat 1 * s.params.width.bytes →
    FaultsWith (.alloc imm) s (.allocationFailed imm)) ∧
  (∀ s imm, s.sp = s.params.stackCap → FaultsWith (.alloc imm) s (.stackOverflow .alloc s.sp)) ∧
  ImmediateChecked .alloc

/-- R35, R87: whatever the oracle answers (script or free value, log 5), ALLOC either faults with
`AllocationFailed` or adds a block at an admissible base. -/
def Obligations.AllocIsAdmissibleForEveryOracle : Prop :=
  ∀ (s : State) (imm : Word), Stacked s → s.sp < s.params.stackCap →
    FaultsWith (.alloc imm) s (.allocationFailed imm) ∨
    ∃ t b, exec (.alloc imm) s = .next t ∧ Admissible s.params.width imm.toNat b s.heap ∧ Allocated imm b s t

/-- R88, R36: FREE of a live base removes exactly its block, so all its addresses become unmapped; FREE of
anything else faults. -/
def Obligations.FreeRule : Prop :=
  encode .default .free = [0x1C] ∧
  (∀ s below a c, Stacked s → Memory.wf s.params.width s.heap → s.live = below ++ [a] → c ∈ s.heap → c.base = a →
    ∃ t, exec .free s = .next t ∧ t.live = below ∧ t.sp = below.length ∧ PcMoved s t 1 ∧
      (∀ d, d ∈ t.heap ↔ d ∈ s.heap ∧ d.base ≠ a) ∧
      (∀ x : Word, a.toNat ≤ x.toNat → x.toNat < a.toNat + c.words * s.params.width.bytes →
        Memory.read s.params.width x t.heap = .unmapped) ∧
      (∀ x : Word, x.toNat < a.toNat ∨ a.toNat + c.words * s.params.width.bytes ≤ x.toNat →
        Memory.read s.params.width x t.heap = Memory.read s.params.width x s.heap) ∧
      t = { s with stk := t.stk, sp := t.sp, pc := t.pc, heap := t.heap }) ∧
  (∀ s below a, Stacked s → s.live = below ++ [a] → (∀ c ∈ s.heap, c.base ≠ a) →
    FaultsWith .free s (.invalidFree a)) ∧
  (∀ s, s.sp = 0 → FaultsWith .free s (.stackUnderflow .free 0))

/-- R89, R32: STO to a word-valid address changes that word and no other; to any other address it faults. -/
def Obligations.StoRule : Prop :=
  encode .default .sto = [0x1D] ∧
  (∀ s below a v, Stacked s → s.live = below ++ [a, v] → WordValid s.params.width a s.heap →
    ∃ t, exec .sto s = .next t ∧ t.live = below ∧ t.sp = below.length ∧ PcMoved s t 1 ∧
      Memory.read s.params.width a t.heap = .word v ∧
      (∀ x : Word, x ≠ a → Memory.read s.params.width x t.heap = Memory.read s.params.width x s.heap) ∧
      t.heap.map (fun c => (c.base, c.words)) = s.heap.map (fun c => (c.base, c.words)) ∧
      t = { s with stk := t.stk, sp := t.sp, pc := t.pc, heap := t.heap }) ∧
  (∀ s below a v, Stacked s → s.live = below ++ [a, v] → ¬ WordValid s.params.width a s.heap →
    FaultsWith .sto s (.invalidMemoryAccess a .unmapped)) ∧
  (∀ s, s.sp < 2 → FaultsWith .sto s (.stackUnderflow .sto s.sp))

/-- R90, R31: RET pushes the word at a word-valid address that has been written; it faults by name otherwise,
`Unmapped` before `Uninitialized`. -/
def Obligations.RetRule : Prop :=
  encode .default .ret = [0x1E] ∧
  (∀ s below a v, Stacked s → s.live = below ++ [a] → Memory.read s.params.width a s.heap = .word v →
    StackResult .ret s 1 (below ++ [v])) ∧
  (∀ s below a, Stacked s → s.live = below ++ [a] → WordValid s.params.width a s.heap →
    (∀ v, Memory.read s.params.width a s.heap ≠ .word v) →
    FaultsWith .ret s (.invalidMemoryAccess a .uninitialized)) ∧
  (∀ s below a, Stacked s → s.live = below ++ [a] → ¬ WordValid s.params.width a s.heap →
    FaultsWith .ret s (.invalidMemoryAccess a .unmapped)) ∧
  (∀ s, s.sp = 0 → FaultsWith .ret s (.stackUnderflow .ret 0))

/-- R39: a RET returns the value of the most recent STO to the same address: also after a STO elsewhere. -/
def Obligations.LoadReturnsLatestStore : Prop :=
  ∀ (s : State) (below : List Word) (a b u v : Word), Stacked s → s.live = below ++ [b, u, a, v] →
    WordValid s.params.width a s.heap → WordValid s.params.width b s.heap →
    ∃ t, execAll [.sto, .sto, .push a, .ret] s = .next t ∧ t.live = below ++ [if a = b then u else v]

/-! ## Control -/

/-- R92, R93, R94: the three jumps: the immediate is checked, taken or not; the target is not checked by the jump,
and where it lies at or past the end of the body the next step faults there. -/
def Obligations.JumpRules : Prop :=
  (∀ imm, encode .default (.jmp imm) = bytesFI 0x1F imm ∧ encode .default (.jmpIfTrue imm) = bytesFI 0x20 imm ∧
    encode .default (.jmpIfFalse imm) = bytesFI 0x21 imm) ∧
  (∀ s imm, Stacked s → exec (.jmp imm) s = .next { s with pc := imm }) ∧
  (∀ s below c imm, Stacked s → s.live = below ++ [c] →
    ∃ t, exec (.jmpIfTrue imm) s = .next t ∧ t.live = below ∧ t.sp = below.length ∧
      (c.toNat ≠ 0 → t.pc = imm) ∧ (c.toNat = 0 → PcMoved s t (1 + s.params.width.bytes)) ∧
      t = { s with stk := t.stk, sp := t.sp, pc := t.pc }) ∧
  (∀ s imm, s.sp = 0 → FaultsWith (.jmpIfTrue imm) s (.stackUnderflow .jmpIfTrue 0)) ∧
  (∀ s below c imm, Stacked s → s.live = below ++ [c] →
    ∃ t, exec (.jmpIfFalse imm) s = .next t ∧ t.live = below ∧ t.sp = below.length ∧
      (c.toNat = 0 → t.pc = imm) ∧ (c.toNat ≠ 0 → PcMoved s t (1 + s.params.width.bytes)) ∧
      t = { s with stk := t.stk, sp := t.sp, pc := t.pc }) ∧
  (∀ s imm, s.sp = 0 → FaultsWith (.jmpIfFalse imm) s (.stackUnderflow .jmpIfFalse 0)) ∧
  (ImmediateChecked .jmp ∧ ImmediateChecked .jmpIfTrue ∧ ImmediateChecked .jmpIfFalse) ∧
  (∀ t : State, t.status = .running → t.program.body.length ≤ t.pc.toNat →
    step t = .next { t with status := .faulted ⟨.programOutOfBounds t.pc 1, t.pc⟩ })

/-- R91: a jump past the body completes; the fault is the next step's, at the target. -/
def Obligations.JumpPastBodyFaultsAtTarget : Prop :=
  ∀ (s : State) (k : Word), Stacked s → s.status = .running → fetch s = .ok (.jmp k) →
    s.program.body.length ≤ k.toNat →
    step s = .next { s with pc := k } ∧
    step { s with pc := k } = .next { s with pc := k, status := .faulted ⟨.programOutOfBounds k 1, k⟩ }

/-- R99: HALT stops the run, whatever the stack and the heap hold, and no step but a HALT's halts. -/
def Obligations.HaltRule : Prop :=
  encode .default .halt = [0x26] ∧
  (∀ s, Stacked s → ∃ t, exec .halt s = .next t ∧ t.status = .halted ∧ PcMoved s t 1 ∧ exitStatus t.status = some 0 ∧
    t = { s with status := t.status, pc := t.pc } ∧ ∀ u, step t ≠ .next u) ∧
  (∀ s t, step s = .next t → exitStatus t.status = some 0 → fetch s = .ok .halt)

/-! ## Input and output -/

/-- R95, R96: PRINT emits the low byte; PRINT_INT the decimal digits and 0x0A. -/
def Obligations.PrintRules : Prop :=
  (encode .default .print = [0x22] ∧ encode .default .printInt = [0x23]) ∧
  (∀ s below v, Stacked s → s.live = below ++ [v] →
    ∃ t, exec .print s = .next t ∧ t.live = below ∧ t.sp = below.length ∧ PcMoved s t 1 ∧
      t.outHist = s.outHist ++ [BitVec.ofNat 8 (v.toNat % 256)] ∧
      t = { s with stk := t.stk, sp := t.sp, pc := t.pc, outHist := t.outHist }) ∧
  (∀ s, s.sp = 0 → FaultsWith .print s (.stackUnderflow .print 0)) ∧
  (∀ s below v, Stacked s → s.live = below ++ [v] →
    ∃ t, exec .printInt s = .next t ∧ t.live = below ∧ t.sp = below.length ∧ PcMoved s t 1 ∧
      t.outHist = s.outHist ++ (Nat.toDigits 10 v.toNat).map (fun c => BitVec.ofNat 8 c.toNat) ++ [0x0A] ∧
      t = { s with stk := t.stk, sp := t.sp, pc := t.pc, outHist := t.outHist }) ∧
  (∀ s, s.sp = 0 → FaultsWith .printInt s (.stackUnderflow .printInt 0))

/-- R97: INPUT takes the next raw byte, faults at the end of the stream, and a full stack is found first; while the
host has neither supplied the byte nor ended the stream it has no step, and it resumes when the host does either. -/
def Obligations.InputTakesRawByte : Prop :=
  encode .default .input = [0x24] ∧
  (∀ s b, Stacked s → s.sp < s.params.stackCap → s.inStream[s.inPos]? = some b →
    ∃ t, exec .input s = .next t ∧ t.live = s.live ++ [BitVec.ofNat 64 b.toNat] ∧ t.sp = s.sp + 1 ∧
      PcMoved s t 1 ∧ t.inPos = s.inPos + 1 ∧
      t = { s with stk := t.stk, sp := t.sp, pc := t.pc, inPos := t.inPos }) ∧
  (∀ s, Stacked s → s.sp < s.params.stackCap → s.inStream.length ≤ s.inPos → s.inEnded = true →
    FaultsWith .input s (.inputError .endOfInput)) ∧
  (∀ s, s.sp = s.params.stackCap → FaultsWith .input s (.stackOverflow .input s.sp)) ∧
  (∀ s, Stacked s → s.sp < s.params.stackCap → s.inStream.length ≤ s.inPos → s.inEnded = false →
    (∀ t, exec .input s ≠ .next t) ∧ FaultsWith .input (endInput s) (.inputError .endOfInput)) ∧
  (∀ s b bs, Stacked s → s.sp < s.params.stackCap → s.inStream.length = s.inPos → s.inEnded = false →
    ∃ t, exec .input (supplyInput (b :: bs) s) = .next t ∧ t.live = s.live ++ [BitVec.ofNat 64 b.toNat] ∧
      t.inPos = s.inPos + 1)

/-- R98: INPUT_INT over an input of white space, digits and what follows; while the host has neither supplied the
byte after the white space and the digits nor ended the stream it has no step. -/
def Obligations.InputIntReadsDecimal : Prop :=
  encode .default .inputInt = [0x25] ∧
  (∀ s ws ds tail, Stacked s → s.sp < s.params.stackCap → s.inStream.drop s.inPos = ws ++ ds ++ tail →
    (∀ b ∈ ws, White b) → ds ≠ [] → (∀ b ∈ ds, Digit b) →
    ((tail = [] ∧ s.inEnded = true) ∨ ∃ b rest, tail = b :: rest ∧ ¬ Digit b) →
    numberOf ds < 2 ^ s.params.width.bits →
    ∃ t, exec .inputInt s = .next t ∧ t.live = s.live ++ [BitVec.ofNat 64 (numberOf ds)] ∧ t.sp = s.sp + 1 ∧
      PcMoved s t 1 ∧ t.inPos = s.inPos + ws.length + ds.length ∧
      t = { s with stk := t.stk, sp := t.sp, pc := t.pc, inPos := t.inPos }) ∧
  (∀ s ws ds tail, Stacked s → s.sp < s.params.stackCap → s.inStream.drop s.inPos = ws ++ ds ++ tail →
    (∀ b ∈ ws, White b) → ds ≠ [] → (∀ b ∈ ds, Digit b) →
    ((tail = [] ∧ s.inEnded = true) ∨ ∃ b rest, tail = b :: rest ∧ ¬ Digit b) →
    2 ^ s.params.width.bits ≤ numberOf ds → FaultsWith .inputInt s (.inputError .outOfRange)) ∧
  (∀ s ws b rest, Stacked s → s.sp < s.params.stackCap → s.inStream.drop s.inPos = ws ++ b :: rest →
    (∀ b ∈ ws, White b) → ¬ White b → ¬ Digit b → FaultsWith .inputInt s (.inputError .notANumber)) ∧
  (∀ s, Stacked s → s.sp < s.params.stackCap → (∀ b ∈ s.inStream.drop s.inPos, White b) → s.inEnded = true →
    FaultsWith .inputInt s (.inputError .endOfInput)) ∧
  (∀ s, s.sp = s.params.stackCap → FaultsWith .inputInt s (.stackOverflow .inputInt s.sp)) ∧
  (∀ s ws ds, Stacked s → s.sp < s.params.stackCap → s.inStream.drop s.inPos = ws ++ ds → s.inEnded = false →
    (∀ b ∈ ws, White b) → (∀ b ∈ ds, Digit b) → ∀ t, exec .inputInt s ≠ .next t)

/-- The hold of R97 and R98 over whole steps (the name `waiting` for it is the model's, log 4): exactly the held blocks
are stuck waiting; ending the stream always lifts the hold, supplying a byte lifts that of INPUT, and INPUT then takes
that byte. -/
def Obligations.HeldInputHasNoStep : Prop :=
  (∀ s, step s = .fault .waiting ↔ held s = true) ∧
  (∀ s, held s = true → ∃ t, step (endInput s) = .next t) ∧
  (∀ s b bs, s.inPos ≤ s.inStream.length → Stacked s → held s = true → fetch s = .ok .input →
    ∃ t, step (supplyInput (b :: bs) s) = .next t ∧ t.live = s.live ++ [BitVec.ofNat 64 b.toNat] ∧
      t.inPos = s.inPos + 1)

/-- R112, R124: when the host acts cannot change a result: a step that exists is the same step after the host has
supplied more bytes, or has ended the stream. -/
def Obligations.InputTimingChangesNothing : Prop :=
  ∀ (s t : State) (bs : List Byte), s.inPos ≤ s.inStream.length → s.inEnded = false → step s = .next t →
    step (supplyInput bs s) = .next (supplyInput bs t) ∧ step (endInput s) = .next (endInput t)

/-! ## Loading -/

/-- R115, R118: a header survives encoding and decoding, whatever follows it, and its fields stand little-endian at
offsets 0, 2, 4 and 6. -/
def Obligations.HeaderRoundTrip : Prop :=
  (∀ (h : Header) (rest : List Byte), decodeHeader (encodeHeader h ++ rest) = some (h, rest)) ∧
  (∀ (image : List Byte) (h : Header) (rest : List Byte), decodeHeader image = some (h, rest) →
    encodeHeader h ++ rest = image ∧ h.major.toNat = littleEndian image 0 2 ∧ h.minor.toNat = littleEndian image 2 2 ∧
      h.patch.toNat = littleEndian image 4 2 ∧ h.bodySize.toNat = littleEndian image 6 4)

/-- R116, R118, R119: the loader's version check, for every engine version, and the start of an accepted program;
the bytes after the body do not matter. -/
def Obligations.LoaderVersionCheck : Prop :=
  ∀ (v : EngineVersion) (p : Params) (h : Header) (body trailing : List Byte), body.length = h.bodySize.toNat →
    (h.major ≠ v.major →
      load v p (.image (encodeHeader h ++ body ++ trailing)) = .failed .versionMismatch) ∧
    (h.major = v.major → v.minor.toNat < h.minor.toNat →
      load v p (.image (encodeHeader h ++ body ++ trailing)) = .failed .versionTooNew) ∧
    (h.major = v.major → h.minor.toNat ≤ v.minor.toNat →
      load v p (.image (encodeHeader h ++ body ++ trailing)) = .started (.start p ⟨h, body⟩))

/-- R117: the five loading errors, each by its cause, their codes and the exit status; a failed load executes
nothing, for there is no block. That a header of fewer than ten bytes is TruncatedProgram before the version is looked
at, whatever its bytes say, is the model's reading of the order (DEDUCED, log 12). -/
def Obligations.LoadingErrors : Prop :=
  (∀ v p h rest, h.major ≠ v.major → load v p (.image (encodeHeader h ++ rest)) = .failed .versionMismatch) ∧
  (∀ v p h rest, h.major = v.major → v.minor.toNat < h.minor.toNat →
    load v p (.image (encodeHeader h ++ rest)) = .failed .versionTooNew) ∧
  (∀ v p bytes, bytes.length < 10 → load v p (.image bytes) = .failed .truncatedProgram) ∧
  (∀ v p h body, body.length < h.bodySize.toNat → h.major = v.major → h.minor.toNat ≤ v.minor.toNat →
    load v p (.image (encodeHeader h ++ body)) = .failed .truncatedProgram) ∧
  (∀ v p, load v p .badCommandLine = .failed .usageError ∧ load v p .unreadable = .failed .ioError) ∧
  (∀ v p r e, load v p r = .failed e → loadExitStatus (load v p r) = some 1) ∧
  [LoadError.usageError, .ioError, .versionMismatch, .versionTooNew, .truncatedProgram].map LoadError.code =
    [16, 17, 18, 19, 20]

/-- R119, R12: what a successful load leaves: the reset state, with the program's body from offset 0 on and the
invariant. -/
def Obligations.LoadStartsAtReset : Prop :=
  ∀ (v : EngineVersion) (p : Params) (r : LoadRequest) (s : State), p.Ok → load v p r = .started s →
    s.status = .running ∧ s.pc = 0 ∧ s.sp = 0 ∧ s.heap = [] ∧ s.outHist = [] ∧ s.inPos = 0 ∧ s.params = p ∧
    s.program.body.length = s.program.header.bodySize.toNat ∧ s.Inv ∧
    ∀ i rest, decode p s.program.body = .ok (i, rest) → step s = exec i s
end

