-- ==== Sys2Proof/Laws/Words.lean ====
section
/-! SUPPORT. Narrowing to a word, byte order, the capped power, digits: what each function computes. -/

namespace Sys2Proof.Machine

theorem bits_le (w : Width) : w.bits ≤ 64 := by cases w <;> decide

theorem bits_eq (w : Width) : w.bits = 8 * w.bytes := by cases w <;> rfl

theorem bytes_pos (w : Width) : 0 < w.bytes := by cases w <;> decide

theorem two_pow_bits_le (w : Width) : 2 ^ w.bits ≤ 2 ^ 64 := Nat.pow_le_pow_right (by decide) (bits_le w)

theorem two_pow_bits_pos (w : Width) : 0 < 2 ^ w.bits := Nat.pow_pos (by decide)

/-- R11: `wrap` is the residue modulo `2^W`. -/
theorem wrap_toNat (w : Width) (x : Int) : ((wrap w x).toNat : Int) = x % (2 ^ w.bits : Nat) := by
  have hpos : (0 : Int) < (2 ^ w.bits : Nat) := by exact_mod_cast two_pow_bits_pos w
  have h0 := Int.emod_nonneg x hpos.ne'
  have h1 := Int.emod_lt_of_pos x hpos
  have hle := two_pow_bits_le w
  unfold wrap
  rw [BitVec.toNat_ofNat, Nat.mod_eq_of_lt (by omega)]
  exact Int.toNat_of_nonneg h0

/-- `wrap` of a natural number. -/
theorem wrap_natCast_toNat (w : Width) (n : Nat) : (wrap w (n : Int)).toNat = n % 2 ^ w.bits := by
  exact_mod_cast wrap_toNat w n

theorem wrap_fits (w : Width) (x : Int) : w.fits (wrap w x) := by
  have hpos : (0 : Int) < (2 ^ w.bits : Nat) := by exact_mod_cast two_pow_bits_pos w
  have h := Int.emod_lt_of_pos x hpos
  rw [← wrap_toNat] at h
  exact_mod_cast h

/-- A number that is a word already is unchanged by narrowing. -/
theorem wrap_toNat_of_lt {w : Width} {n : Nat} (h : n < 2 ^ w.bits) : (wrap w (n : Int)).toNat = n := by
  rw [wrap_natCast_toNat, Nat.mod_eq_of_lt h]

theorem wrap_self {w : Width} {v : Word} (h : w.fits v) : wrap w (v.toNat : Int) = v :=
  BitVec.eq_of_toNat_eq (wrap_toNat_of_lt h)

theorem zero_fits (w : Width) : w.fits 0 := two_pow_bits_pos w

theorem boolWord_fits (w : Width) (b : Bool) : w.fits (boolWord b) := by
  cases w <;> cases b <;> decide

theorem byte_fits (w : Width) (b : Byte) : w.fits (BitVec.ofNat 64 b.toNat) := by
  have hb := b.isLt
  have : 2 ^ 8 ≤ 2 ^ w.bits := Nat.pow_le_pow_right (by decide) (by cases w <;> decide)
  show (BitVec.ofNat 64 b.toNat).toNat < _
  rw [BitVec.toNat_ofNat, Nat.mod_eq_of_lt (by omega)]
  omega

theorem and_fits {w : Width} {a b : Word} (ha : w.fits a) : w.fits (a &&& b) := by
  show (a &&& b).toNat < _
  rw [BitVec.toNat_and]
  exact Nat.lt_of_le_of_lt Nat.and_le_left ha

theorem or_fits {w : Width} {a b : Word} (ha : w.fits a) (hb : w.fits b) : w.fits (a ||| b) := by
  show (a ||| b).toNat < _
  rw [BitVec.toNat_or]
  exact Nat.or_lt_two_pow ha hb

theorem xor_fits {w : Width} {a b : Word} (ha : w.fits a) (hb : w.fits b) : w.fits (a ^^^ b) := by
  show (a ^^^ b).toNat < _
  rw [BitVec.toNat_xor]
  exact Nat.xor_lt_two_pow ha hb

/-! ## The capped power (R70) -/

theorem powCapped_lt_iff {t : Nat} (ht : t ≤ 2 ^ 64) (x y : Nat) : powCapped x y < t ↔ x ^ y < t := by
  unfold powCapped
  split
  · obtain rfl | rfl : x = 0 ∨ x = 1 := by omega
    · rcases y with _ | y <;> simp
    · simp
  · rename_i hx
    by_cases hy : y ≤ 64
    · rw [Nat.min_eq_left hy]
    · rw [Nat.min_eq_right (by omega)]
      have h2 : 2 ^ 64 ≤ x ^ 64 := Nat.pow_le_pow_left (by omega) 64
      have h3 : x ^ 64 ≤ x ^ y := Nat.pow_le_pow_right (by omega) (by omega)
      constructor <;> intro h <;> omega

theorem powCapped_eq {x y : Nat} (h : x ^ y < 2 ^ 64) : powCapped x y = x ^ y := by
  unfold powCapped
  split
  · obtain rfl | rfl : x = 0 ∨ x = 1 := by omega
    · rcases y with _ | y <;> simp
    · simp
  · rename_i hx
    by_cases hy : y ≤ 64
    · rw [Nat.min_eq_left hy]
    · have h2 : 2 ^ 64 ≤ x ^ 64 := Nat.pow_le_pow_left (by omega) 64
      have h3 : x ^ 64 ≤ x ^ y := Nat.pow_le_pow_right (by omega) (by omega)
      omega

theorem powLimit_le (w : Width) : powLimit w ≤ 2 ^ w.bits := Nat.pow_le_pow_right (by decide) (Nat.min_le_left _ _)

/-! ## Byte order (R28) -/

theorem bytesOfWord_length (n v : Nat) : (bytesOfWord n v).length = n := by
  induction n generalizing v with
  | zero => rfl
  | succ n ih => simp [bytesOfWord, ih]

theorem wordOfBytes_bytesOfWord (n v : Nat) : wordOfBytes (bytesOfWord n v) = v % 2 ^ (8 * n) := by
  induction n generalizing v with
  | zero => simp [bytesOfWord, wordOfBytes, Nat.mod_one]
  | succ n ih =>
    have h : 2 ^ (8 * (n + 1)) = 256 * 2 ^ (8 * n) := by rw [Nat.mul_add, Nat.pow_add]; omega
    rw [bytesOfWord, wordOfBytes, ih, h, Nat.mod_mul, BitVec.toNat_ofNat]

theorem wordOfBytes_lt (bs : List Byte) : wordOfBytes bs < 2 ^ (8 * bs.length) := by
  induction bs with
  | nil => simp [wordOfBytes]
  | cons b rest ih =>
    have h : 2 ^ (8 * (rest.length + 1)) = 256 * 2 ^ (8 * rest.length) := by rw [Nat.mul_add, Nat.pow_add]; omega
    have hb := b.isLt
    rw [wordOfBytes, List.length_cons, h]
    omega

theorem bytesOfWord_wordOfBytes (bs : List Byte) : bytesOfWord bs.length (wordOfBytes bs) = bs := by
  induction bs with
  | nil => rfl
  | cons b rest ih =>
    have hb := b.isLt
    have h1 : (b.toNat + 256 * wordOfBytes rest) / 256 = wordOfBytes rest := by omega
    rw [List.length_cons, wordOfBytes, bytesOfWord, h1, ih]
    congr 1
    apply BitVec.eq_of_toNat_eq
    rw [BitVec.toNat_ofNat]
    omega

/-! ## Digits (R96, R98) -/

theorem digitsValue_append (v : Nat) (ds es : List Byte) :
    digitsValue v (ds ++ es) = digitsValue (digitsValue v ds) es := List.foldl_append

/-- R96: the digits of a number, read as a number, give it back. -/
theorem digitsValue_decimalDigits {fuel v : Nat} (h : v < 10 ^ fuel) : digitsValue 0 (decimalDigits fuel v) = v := by
  induction fuel generalizing v with
  | zero => simp [decimalDigits, digitsValue]; simp at h; omega
  | succ fuel ih =>
    unfold decimalDigits
    split
    · simp [digitsValue, BitVec.toNat_ofNat]; omega
    · rw [digitsValue_append, ih (by rw [Nat.pow_succ] at h; omega)]
      simp [digitsValue, BitVec.toNat_ofNat]; omega

/-- R96: every byte of a decimal form is a digit. -/
theorem decimalDigits_isDigit (fuel v : Nat) : ∀ b ∈ decimalDigits fuel v, isDigit b = true := by
  induction fuel generalizing v with
  | zero => simp [decimalDigits]
  | succ fuel ih =>
    unfold decimalDigits
    split
    · simp [isDigit, BitVec.toNat_ofNat]; omega
    · intro b hb
      rcases List.mem_append.1 hb with hb | hb
      · exact ih _ b hb
      · simp only [List.mem_singleton] at hb
        subst hb
        simp [isDigit, BitVec.toNat_ofNat]; omega

end Sys2Proof.Machine
end

