-- ==== Sys2Proof/Laws/Decode.lean ====
section
/-! SUPPORT. The opcode map, and the parts of decoding and encoding. -/

namespace Sys2Proof

theorem Mnemonic.mem_all (m : Mnemonic) : m ∈ Mnemonic.all := by cases m <;> decide

theorem Mnemonic.index_lt (m : Mnemonic) : m.index < 39 := by cases m <;> decide

theorem Mnemonic.all_getElem_index (m : Mnemonic) : Mnemonic.all[m.index]? = some m := by cases m <;> rfl

theorem Mnemonic.index_inj {m n : Mnemonic} (h : m.index = n.index) : m = n := by
  have := Mnemonic.all_getElem_index m
  rw [h, Mnemonic.all_getElem_index n] at this
  exact (Option.some.inj this).symm

/-- R5: an admissible map is injective. -/
theorem opcodeOf_inj {map : List Byte} (hmap : OpcodeMapOk map) {m n : Mnemonic}
    (h : opcodeOf map m = opcodeOf map n) : m = n := by
  obtain ⟨hlen, hnd, _⟩ := hmap
  have hm := m.index_lt
  have hn := n.index_lt
  unfold opcodeOf at h
  rw [List.getD_eq_getElem _ _ (by omega), List.getD_eq_getElem _ _ (by omega)] at h
  exact Mnemonic.index_inj ((List.Nodup.getElem_inj_iff hnd).1 h)

/-- R47: an admissible map never uses 0x99. -/
theorem opcodeOf_ne_99 {map : List Byte} (hmap : OpcodeMapOk map) (m : Mnemonic) : opcodeOf map m ≠ 0x99 := by
  obtain ⟨hlen, _, h99⟩ := hmap
  have hm := m.index_lt
  unfold opcodeOf
  rw [List.getD_eq_getElem _ _ (by omega)]
  intro h
  exact h99 (h ▸ List.getElem_mem _)

theorem opcodeOf_of_mnemonicOf {map : List Byte} {b : Byte} {m : Mnemonic} (h : mnemonicOf map b = some m) :
    opcodeOf map m = b := by
  simpa using List.find?_some h

/-- R54: under an admissible map each opcode byte selects its mnemonic. -/
theorem mnemonicOf_opcodeOf {map : List Byte} (hmap : OpcodeMapOk map) (m : Mnemonic) :
    mnemonicOf map (opcodeOf map m) = some m := by
  cases h : mnemonicOf map (opcodeOf map m) with
  | none =>
    have := List.find?_eq_none.1 h m m.mem_all
    simp at this
  | some n => rw [opcodeOf_inj hmap (opcodeOf_of_mnemonicOf h)]

/-- R47: a byte selects nothing exactly when it is no mnemonic's. -/
theorem mnemonicOf_eq_none_iff {map : List Byte} {b : Byte} :
    mnemonicOf map b = none ↔ ∀ m, opcodeOf map m ≠ b := by
  unfold mnemonicOf
  rw [List.find?_eq_none]
  constructor
  · intro h m; simpa using h m m.mem_all
  · intro h m _; simpa using h m

theorem ofMnemonic_mnemonic (m : Mnemonic) (imm : Word) : (Instr.ofMnemonic m imm).mnemonic = m := by
  cases m <;> rfl

theorem ofMnemonic_immediate (m : Mnemonic) (imm : Word) :
    (Instr.ofMnemonic m imm).immediate = if formatOf m = .FI then some imm else none := by
  cases m <;> rfl

theorem ofMnemonic_wf (w : Width) (m : Mnemonic) (imm : Word) (h : formatOf m = .F0 ∨ w.fits imm) :
    (Instr.ofMnemonic m imm).wf w = true := by
  cases m <;> first | rfl | (simpa [formatOf, Instr.wf, Instr.ofMnemonic] using h)

/-- What a decoded instruction is made of: its opcode byte, and the bytes of its immediate. -/
theorem decode_cases {p : Params} {bytes : List Byte} {i : Instr} {rest : List Byte}
    (h : decode p bytes = .ok (i, rest)) :
    ∃ b tail m, bytes = b :: tail ∧ mnemonicOf p.opcodeMap b = some m ∧
      ((formatOf m = .F0 ∧ i = .ofMnemonic m 0 ∧ rest = tail) ∨
       (formatOf m = .FI ∧ p.width.bytes ≤ tail.length ∧ rest = tail.drop p.width.bytes ∧
        i = .ofMnemonic m (BitVec.ofNat 64 (wordOfBytes (tail.take p.width.bytes))))) := by
  cases bytes with
  | nil => simp [decode] at h
  | cons b tail =>
    simp only [decode] at h
    cases hm : mnemonicOf p.opcodeMap b with
    | none => simp [hm] at h
    | some m =>
      refine ⟨b, tail, m, rfl, hm, ?_⟩
      rw [hm] at h
      cases hf : formatOf m with
      | F0 =>
        simp only [hf, Except.ok.injEq, Prod.mk.injEq] at h
        exact .inl ⟨rfl, h.1.symm, h.2.symm⟩
      | FI =>
        simp only [hf] at h
        split at h
        · simp at h
        · rename_i hl
          simp only [Except.ok.injEq, Prod.mk.injEq] at h
          exact .inr ⟨rfl, by omega, h.2.symm, h.1.symm⟩

/-- The immediate a decoder reads from whole bytes is a word of `W` bits. -/
theorem immediate_fits (w : Width) (bs : List Byte) (h : bs.length = w.bytes) :
    w.fits (BitVec.ofNat 64 (wordOfBytes bs)) := by
  have hlt := Machine.wordOfBytes_lt bs
  have hle := Machine.two_pow_bits_le w
  rw [h, ← Machine.bits_eq] at hlt
  show (BitVec.ofNat 64 (wordOfBytes bs)).toNat < _
  rw [BitVec.toNat_ofNat, Nat.mod_eq_of_lt (by omega)]
  exact hlt

theorem decode_wf {p : Params} {bytes : List Byte} {i : Instr} {rest : List Byte}
    (h : decode p bytes = .ok (i, rest)) : i.wf p.width = true := by
  obtain ⟨b, tail, m, _, _, ⟨hf, rfl, _⟩ | ⟨hf, hl, _, rfl⟩⟩ := decode_cases h
  · exact ofMnemonic_wf _ _ _ (.inl hf)
  · exact ofMnemonic_wf _ _ _ (.inr (immediate_fits _ _ (by simp; omega)))

end Sys2Proof
end

