-- ==== Sys2Proof/Laws/Memory.lean ====
section
/-! SUPPORT. The heap: every operation keeps the canonical form, and what a read gives after it. -/

namespace Sys2Proof.Machine

/-! ## Cells -/

theorem cellRead_cellWrite_self (k : Nat) (v : Word) (cs : List (Nat × Word)) :
    cellRead k (cellWrite k v cs) = some v := by
  induction cs with
  | nil => simp [cellWrite, cellRead]
  | cons c rest ih =>
    obtain ⟨j, u⟩ := c
    simp only [cellWrite]
    split
    · rename_i h; simp [cellRead, Nat.ne_of_lt h, ih]
    · split <;> simp [cellRead]

theorem cellRead_cellWrite_of_ne {k l : Nat} (h : l ≠ k) (v : Word) (cs : List (Nat × Word)) :
    cellRead l (cellWrite k v cs) = cellRead l cs := by
  induction cs with
  | nil => simp [cellWrite, cellRead, Ne.symm h]
  | cons c rest ih =>
    obtain ⟨j, u⟩ := c
    simp only [cellWrite]
    split
    · simp [cellRead, ih]
    · split
      · rename_i h1 h2; subst h2; simp [cellRead, Ne.symm h]
      · simp [cellRead, Ne.symm h]

theorem mem_cellWrite {k : Nat} {v : Word} {cs : List (Nat × Word)} {c : Nat × Word}
    (h : c ∈ cellWrite k v cs) : c = (k, v) ∨ c ∈ cs := by
  induction cs with
  | nil => simpa [cellWrite] using h
  | cons d rest ih =>
    obtain ⟨j, u⟩ := d
    simp only [cellWrite] at h
    split at h
    · rcases List.mem_cons.1 h with h | h
      · exact .inr (by simp [h])
      · rcases ih h with h | h
        · exact .inl h
        · exact .inr (List.mem_cons_of_mem _ h)
    · split at h
      · rcases List.mem_cons.1 h with h | h
        · exact .inl h
        · exact .inr (List.mem_cons_of_mem _ h)
      · rcases List.mem_cons.1 h with h | h
        · exact .inl h
        · exact .inr h

theorem cellWrite_pairwise {k : Nat} {v : Word} {cs : List (Nat × Word)}
    (h : cs.Pairwise fun c d => c.1 < d.1) : (cellWrite k v cs).Pairwise fun c d => c.1 < d.1 := by
  induction cs with
  | nil => simp [cellWrite]
  | cons c rest ih =>
    obtain ⟨j, u⟩ := c
    rw [List.pairwise_cons] at h
    simp only [cellWrite]
    split
    · rename_i hj
      rw [List.pairwise_cons]
      refine ⟨fun d hd => ?_, ih h.2⟩
      rcases mem_cellWrite hd with rfl | hd
      · exact hj
      · exact h.1 d hd
    · split
      · rename_i hj; subst hj
        exact List.pairwise_cons.2 ⟨fun d hd => h.1 d hd, h.2⟩
      · rename_i h1 h2
        refine List.pairwise_cons.2 ⟨fun d hd => ?_, List.pairwise_cons.2 h⟩
        rcases List.mem_cons.1 hd with rfl | hd
        · show k < j; omega
        · have : j < d.1 := h.1 d hd
          show k < d.1; omega

theorem mem_of_cellRead {k : Nat} {v : Word} {cs : List (Nat × Word)} (h : cellRead k cs = some v) :
    (k, v) ∈ cs := by
  induction cs with
  | nil => simp [cellRead] at h
  | cons c rest ih =>
    obtain ⟨j, u⟩ := c
    simp only [cellRead] at h
    split at h
    · rename_i hj; subst hj; simp at h; simp [h]
    · exact List.mem_cons_of_mem _ (ih h)

/-! ## Blocks -/

/-- R30: what it means that a block covers an address. -/
theorem covers_iff {w : Width} {a : Word} {b : Block} :
    b.covers w a = true ↔ b.base.toNat ≤ a.toNat ∧ a.toNat < b.base.toNat + b.words * w.bytes ∧
      (a.toNat - b.base.toNat) % w.bytes = 0 := by
  simp [Block.covers, and_assoc]

/-- R30: the word at a covered address lies in the block, at `base + k*WB`. -/
theorem wordAt_spec {w : Width} {a : Word} {b : Block} (h : b.covers w a = true) :
    b.wordAt w a < b.words ∧ a.toNat = b.base.toNat + b.wordAt w a * w.bytes := by
  obtain ⟨h1, h2, h3⟩ := covers_iff.1 h
  have hd := Nat.div_add_mod (a.toNat - b.base.toNat) w.bytes
  rw [h3, Nat.add_zero, Nat.mul_comm] at hd
  refine ⟨?_, ?_⟩
  · unfold Block.wordAt
    rw [Nat.div_lt_iff_lt_mul (bytes_pos w)]
    omega
  · unfold Block.wordAt
    omega

theorem span_ge (w : Width) (b : Block) : b.words * w.bytes ≤ b.span w :=
  Nat.mul_le_mul_right _ (Nat.le_max_left _ _)

theorem span_pos (w : Width) (b : Block) : 0 < b.span w :=
  Nat.mul_pos (by omega) (bytes_pos w)

/-! ## Write -/

/-- All that a write can do: one block's cells change, and nothing else. -/
theorem write_cases {w : Width} {a v : Word} {m m' : Memory} (h : Memory.write w a v m = some m') :
    ∃ pre b post, m = pre ++ b :: post ∧ (∀ c ∈ pre, c.covers w a = false) ∧ b.covers w a = true ∧
      m' = pre ++ { b with cells := cellWrite (b.wordAt w a) v b.cells } :: post := by
  induction m generalizing m' with
  | nil => simp [Memory.write] at h
  | cons b rest ih =>
    simp only [Memory.write] at h
    split at h
    · rename_i hb
      exact ⟨[], b, rest, rfl, by simp, hb, by simpa using h.symm⟩
    · rename_i hb
      obtain ⟨m1, h1, rfl⟩ := Option.map_eq_some_iff.1 h
      obtain ⟨pre, c, post, rfl, hpre, hc, rfl⟩ := ih h1
      refine ⟨b :: pre, c, post, rfl, ?_, hc, rfl⟩
      intro d hd
      rcases List.mem_cons.1 hd with rfl | hd
      · simpa using hb
      · exact hpre d hd

/-- R32: a write keeps the canonical form. -/
theorem write_wf {w : Width} {a v : Word} {m m' : Memory} (hm : Memory.wf w m) (hv : w.fits v)
    (h : Memory.write w a v m = some m') : Memory.wf w m' := by
  obtain ⟨pre, b, post, rfl, _, hb, rfl⟩ := write_cases h
  obtain ⟨hall, hpw⟩ := hm
  have hbw := hall b (by simp)
  refine ⟨fun c hc => ?_, ?_⟩
  · rcases List.mem_append.1 hc with hc | hc
    · exact hall c (by simp [hc])
    rcases List.mem_cons.1 hc with rfl | hc
    · refine ⟨hbw.1, hbw.2.1, hbw.2.2.1, cellWrite_pairwise hbw.2.2.2.1, fun d hd => ?_⟩
      rcases mem_cellWrite hd with rfl | hd
      · exact ⟨(wordAt_spec hb).1, hv⟩
      · exact hbw.2.2.2.2 d hd
    · exact hall c (by simp [hc])
  · rw [List.pairwise_append, List.pairwise_cons] at hpw ⊢
    exact ⟨hpw.1, ⟨hpw.2.1.1, hpw.2.1.2⟩, fun c hc d hd => by
      rcases List.mem_cons.1 hd with rfl | hd
      · exact hpw.2.2 c hc b (by simp)
      · exact hpw.2.2 c hc d (by simp [hd])⟩

/-- A write succeeds exactly at the word-valid addresses. -/
theorem write_isSome (w : Width) (a v : Word) (m : Memory) :
    (Memory.write w a v m).isSome = m.any (·.covers w a) := by
  induction m with
  | nil => rfl
  | cons b rest ih =>
    simp only [Memory.write, List.any_cons]
    by_cases hb : b.covers w a = true
    · simp [hb]
    · simp only [Bool.not_eq_true] at hb
      simp [hb, ih]

/-- A read is unmapped exactly at the addresses that are not word-valid. -/
theorem read_unmapped_iff (w : Width) (a : Word) (m : Memory) :
    Memory.read w a m = .unmapped ↔ m.any (·.covers w a) = false := by
  induction m with
  | nil => simp [Memory.read]
  | cons b rest ih =>
    simp only [Memory.read, List.any_cons]
    by_cases hb : b.covers w a = true
    · simp only [hb, if_true, Bool.true_or]
      cases cellRead (b.wordAt w a) b.cells <;> simp
    · simp only [Bool.not_eq_true] at hb
      simp [hb, ih]

theorem read_append_of_not_covers {w : Width} {a : Word} {pre post : Memory}
    (h : ∀ c ∈ pre, c.covers w a = false) : Memory.read w a (pre ++ post) = Memory.read w a post := by
  induction pre with
  | nil => rfl
  | cons b rest ih =>
    have hb := h b (by simp)
    simp [Memory.read, hb, ih fun c hc => h c (by simp [hc])]

/-- R31, R32: a read after a write to the same address gives the word written. -/
theorem read_write_self {w : Width} {a v : Word} {m m' : Memory} (h : Memory.write w a v m = some m') :
    Memory.read w a m' = .word v := by
  obtain ⟨pre, b, post, rfl, hpre, hb, rfl⟩ := write_cases h
  rw [read_append_of_not_covers hpre]
  have hb' : Block.covers w a { b with cells := cellWrite (b.wordAt w a) v b.cells } = true := hb
  simp only [Memory.read, hb', if_true]
  show (match cellRead (b.wordAt w a) (cellWrite (b.wordAt w a) v b.cells) with
    | none => CellRead.uninit | some v => CellRead.word v) = _
  rw [cellRead_cellWrite_self]

/-- A read, block by block. -/
theorem read_cons (w : Width) (a : Word) (b : Block) (m : Memory) :
    Memory.read w a (b :: m) =
      if b.covers w a then (cellRead (b.wordAt w a) b.cells).elim .uninit .word else Memory.read w a m := by
  simp only [Memory.read]
  split
  · cases cellRead (b.wordAt w a) b.cells <;> rfl
  · rfl

/-- R32: a write leaves every other address alone. -/
theorem read_write_of_ne {w : Width} {a c v : Word} {m m' : Memory} (hne : c ≠ a)
    (h : Memory.write w a v m = some m') : Memory.read w c m' = Memory.read w c m := by
  induction m generalizing m' with
  | nil => simp [Memory.write] at h
  | cons b rest ih =>
    simp only [Memory.write] at h
    split at h
    · rename_i hb
      obtain rfl := Option.some.inj h
      rw [read_cons, read_cons]
      have hcov : Block.covers w c { b with cells := cellWrite (b.wordAt w a) v b.cells } = b.covers w c := rfl
      rw [hcov]
      by_cases hbc : b.covers w c = true
      · have hk : b.wordAt w c ≠ b.wordAt w a := by
          intro heq
          apply hne
          apply BitVec.eq_of_toNat_eq
          rw [(wordAt_spec hbc).2, (wordAt_spec hb).2, heq]
        rw [if_pos hbc, if_pos hbc]
        show (cellRead (b.wordAt w c) (cellWrite (b.wordAt w a) v b.cells)).elim _ _ = _
        rw [cellRead_cellWrite_of_ne hk]
      · rw [if_neg hbc, if_neg hbc]
    · obtain ⟨m1, h1, rfl⟩ := Option.map_eq_some_iff.1 h
      rw [read_cons, read_cons, ih h1]

/-- Every word a canonical heap reads is a word of `W` bits. -/
theorem read_fits {w : Width} {a v : Word} {m : Memory} (hm : Memory.wf w m) (h : Memory.read w a m = .word v) :
    w.fits v := by
  obtain ⟨hall, _⟩ := hm
  induction m with
  | nil => simp [Memory.read] at h
  | cons b rest ih =>
    simp only [Memory.read] at h
    split at h
    · split at h
      · simp at h
      · rename_i u hu
        simp at h; subst h
        exact ((hall b (by simp)).2.2.2.2 _ (mem_of_cellRead hu)).2
    · rename_i hpw _
      exact ih h (fun c hc => hall c (by simp [hc])) (List.pairwise_cons.1 hpw).2

/-! ## Release -/

/-- All that a release can do: one block goes, and nothing else changes. -/
theorem release_cases {a : Word} {m m' : Memory} (h : Memory.release a m = some m') :
    ∃ pre b post, m = pre ++ b :: post ∧ (∀ c ∈ pre, c.base ≠ a) ∧ b.base = a ∧ m' = pre ++ post := by
  induction m generalizing m' with
  | nil => simp [Memory.release] at h
  | cons b rest ih =>
    simp only [Memory.release] at h
    split at h
    · rename_i hb
      exact ⟨[], b, rest, rfl, by simp, hb, by simpa using h.symm⟩
    · rename_i hb
      obtain ⟨m1, h1, rfl⟩ := Option.map_eq_some_iff.1 h
      obtain ⟨pre, c, post, rfl, hpre, hc, rfl⟩ := ih h1
      refine ⟨b :: pre, c, post, rfl, ?_, hc, rfl⟩
      intro d hd
      rcases List.mem_cons.1 hd with rfl | hd
      · exact hb
      · exact hpre d hd

/-- R36: a release keeps the canonical form. -/
theorem release_wf {w : Width} {a : Word} {m m' : Memory} (hm : Memory.wf w m)
    (h : Memory.release a m = some m') : Memory.wf w m' := by
  obtain ⟨pre, b, post, rfl, _, _, rfl⟩ := release_cases h
  have hsub : (pre ++ post).Sublist (pre ++ b :: post) := by simp
  exact ⟨fun c hc => hm.1 c (hsub.subset hc), hm.2.sublist hsub⟩

/-- R36: a release succeeds exactly for the base of a live block. -/
theorem release_isSome (a : Word) (m : Memory) :
    (Memory.release a m).isSome = m.any (fun b => decide (b.base = a)) := by
  induction m with
  | nil => rfl
  | cons b rest ih =>
    simp only [Memory.release, List.any_cons]
    by_cases hb : b.base = a
    · simp [hb]
    · simp [hb, ih]

/-! ## Insert -/

theorem mem_insert {b c : Block} {m : Memory} : c ∈ Memory.insert b m ↔ c = b ∨ c ∈ m := by
  induction m with
  | nil => simp [Memory.insert]
  | cons d rest ih =>
    simp only [Memory.insert]
    split
    · simp
    · simp only [List.mem_cons, ih]; tauto

/-- What the constraints of R35 say. -/
theorem admits_iff {w : Width} {n : Nat} {base : Word} {m : Memory} :
    Memory.admits w n base m = true ↔ base.toNat ≠ 0 ∧ base.toNat % w.bytes = 0 ∧
      base.toNat + max n 1 * w.bytes ≤ 2 ^ w.bits ∧
      ∀ c ∈ m, base.toNat + max n 1 * w.bytes ≤ c.base.toNat ∨ c.base.toNat + c.span w ≤ base.toNat := by
  simp [Memory.admits, and_assoc]

/-- R35: adding a block at an admissible base keeps the canonical form. -/
theorem insert_wf {w : Width} {n : Nat} {base : Word} {m : Memory} (hm : Memory.wf w m)
    (h : Memory.admits w n base m = true) : Memory.wf w (Memory.insert ⟨base, n, []⟩ m) := by
  obtain ⟨h0, h1, h2, h3⟩ := admits_iff.1 h
  refine ⟨fun c hc => ?_, ?_⟩
  · rcases mem_insert.1 hc with rfl | hc
    · exact ⟨h0, h1, h2, List.Pairwise.nil, by simp⟩
    · exact hm.1 c hc
  · obtain ⟨hall, hpw⟩ := hm
    have hspan : Block.span w ⟨base, n, []⟩ = max n 1 * w.bytes := rfl
    induction m with
    | nil => simp [Memory.insert]
    | cons d rest ih =>
      obtain ⟨hd, hrest⟩ := List.pairwise_cons.1 hpw
      simp only [Memory.insert]
      have hdspan := span_pos w d
      split
      · rename_i hlt
        have hbd : base.toNat + max n 1 * w.bytes ≤ d.base.toNat := by
          rcases h3 d (by simp) with h | h
          · exact h
          · have : base.toNat < d.base.toNat := hlt
            omega
        refine List.pairwise_cons.2 ⟨fun e he => ?_, hpw⟩
        rw [hspan]
        rcases List.mem_cons.1 he with rfl | he
        · exact hbd
        · have := hd e he
          show base.toNat + _ ≤ _
          omega
      · rename_i hge
        have hdb : d.base.toNat + d.span w ≤ base.toNat := by
          rcases h3 d (by simp) with h | h
          · have : ¬ base.toNat < d.base.toNat := hge
            have := span_pos w ⟨base, n, []⟩
            rw [hspan] at this
            omega
          · exact h
        refine List.pairwise_cons.2 ⟨fun e he => ?_, ?_⟩
        · rcases mem_insert.1 he with rfl | he
          · exact hdb
          · exact hd e he
        · exact ih (admits_iff.2 ⟨h0, h1, h2, fun c hc => h3 c (by simp [hc])⟩)
            (fun c hc => h3 c (by simp [hc])) (fun c hc => hall c (by simp [hc])) hrest

/-- R35: an address the new block does not cover reads as before. -/
theorem read_insert_of_not_covers {w : Width} {a : Word} {b : Block} (hb : b.covers w a = false) (m : Memory) :
    Memory.read w a (Memory.insert b m) = Memory.read w a m := by
  induction m with
  | nil => simp [Memory.insert, read_cons, hb]
  | cons c rest ih =>
    simp only [Memory.insert]
    split
    · rw [read_cons, if_neg (by simp [hb])]
    · rw [read_cons, read_cons, ih]

/-- R35: an address of the new block reads its cell. -/
theorem read_insert_of_covers {w : Width} {a : Word} {b : Block} (hb : b.covers w a = true) {m : Memory}
    (hm : ∀ c ∈ m, c.covers w a = false) :
    Memory.read w a (Memory.insert b m) = (cellRead (b.wordAt w a) b.cells).elim .uninit .word := by
  induction m with
  | nil => rw [Memory.insert, read_cons, if_pos hb]
  | cons c rest ih =>
    simp only [Memory.insert]
    split
    · rw [read_cons, if_pos hb]
    · rw [read_cons, if_neg (by simp [hm c (by simp)]), ih fun d hd => hm d (by simp [hd])]

/-- R36: an address the released block did not cover reads as before. -/
theorem read_of_not_covers {w : Width} {a : Word} {pre post : Memory} {b : Block} (hb : b.covers w a = false) :
    Memory.read w a (pre ++ b :: post) = Memory.read w a (pre ++ post) := by
  induction pre with
  | nil => rw [List.nil_append, List.nil_append, read_cons, if_neg (by simp [hb])]
  | cons c rest ih => rw [List.cons_append, List.cons_append, read_cons, read_cons, ih]

/-- R30, R35: live blocks never overlap, so at most one of them covers an address. -/
theorem covers_unique {w : Width} {a : Word} {m : Memory} (hm : Memory.wf w m) {b c : Block} (hb : b ∈ m)
    (hc : c ∈ m) (hba : b.covers w a = true) (hca : c.covers w a = true) : b = c := by
  obtain ⟨_, hpw⟩ := hm
  by_contra hne
  have key : ∀ x y : Block, x.covers w a = true → y.covers w a = true →
      ¬ x.base.toNat + x.span w ≤ y.base.toNat := by
    intro x y hx hy hle
    have h1 := covers_iff.1 hx
    have h2 := covers_iff.1 hy
    have := span_ge w x
    omega
  rcases List.pairwise_iff_getElem.1 hpw with hp
  obtain ⟨i, hi, rfl⟩ := List.getElem_of_mem hb
  obtain ⟨j, hj, rfl⟩ := List.getElem_of_mem hc
  rcases Nat.lt_trichotomy i j with h | h | h
  · exact key _ _ hba hca (hp i j hi hj h)
  · subst h; exact hne rfl
  · exact key _ _ hca hba (hp j i hj hi h)

end Sys2Proof.Machine
end

