-- ==== Sys2Proof/Laws/State.lean ====
section
/-! SUPPORT. One lemma for each field and each named update of State, true by unfolding once, so that no later
proof unfolds a record update. -/

namespace Sys2Proof.Machine

@[simp] theorem takeFault_params (c : FaultCause) (s : State) : (takeFault c s).params = s.params := rfl
@[simp] theorem takeFault_program (c : FaultCause) (s : State) : (takeFault c s).program = s.program := rfl
@[simp] theorem takeFault_status (c : FaultCause) (s : State) : (takeFault c s).status = .faulted ⟨c, s.pc⟩ := rfl
@[simp] theorem takeFault_pc (c : FaultCause) (s : State) : (takeFault c s).pc = s.pc := rfl
@[simp] theorem takeFault_stk (c : FaultCause) (s : State) : (takeFault c s).stk = s.stk := rfl
@[simp] theorem takeFault_sp (c : FaultCause) (s : State) : (takeFault c s).sp = s.sp := rfl
@[simp] theorem takeFault_heap (c : FaultCause) (s : State) : (takeFault c s).heap = s.heap := rfl
@[simp] theorem takeFault_allocScript (c : FaultCause) (s : State) : (takeFault c s).allocScript = s.allocScript := rfl
@[simp] theorem takeFault_allocDraws (c : FaultCause) (s : State) : (takeFault c s).allocDraws = s.allocDraws := rfl
@[simp] theorem takeFault_outHist (c : FaultCause) (s : State) : (takeFault c s).outHist = s.outHist := rfl
@[simp] theorem takeFault_inStream (c : FaultCause) (s : State) : (takeFault c s).inStream = s.inStream := rfl
@[simp] theorem takeFault_inEnded (c : FaultCause) (s : State) : (takeFault c s).inEnded = s.inEnded := rfl
@[simp] theorem takeFault_inPos (c : FaultCause) (s : State) : (takeFault c s).inPos = s.inPos := rfl

@[simp] theorem push_params (v : Word) (s : State) : (push v s).params = s.params := rfl
@[simp] theorem push_program (v : Word) (s : State) : (push v s).program = s.program := rfl
@[simp] theorem push_status (v : Word) (s : State) : (push v s).status = s.status := rfl
@[simp] theorem push_pc (v : Word) (s : State) : (push v s).pc = s.pc := rfl
@[simp] theorem push_stk (v : Word) (s : State) : (push v s).stk = s.stk.set s.sp v := rfl
@[simp] theorem push_sp (v : Word) (s : State) : (push v s).sp = s.sp + 1 := rfl
@[simp] theorem push_heap (v : Word) (s : State) : (push v s).heap = s.heap := rfl
@[simp] theorem push_allocScript (v : Word) (s : State) : (push v s).allocScript = s.allocScript := rfl
@[simp] theorem push_allocDraws (v : Word) (s : State) : (push v s).allocDraws = s.allocDraws := rfl
@[simp] theorem push_outHist (v : Word) (s : State) : (push v s).outHist = s.outHist := rfl
@[simp] theorem push_inStream (v : Word) (s : State) : (push v s).inStream = s.inStream := rfl
@[simp] theorem push_inEnded (v : Word) (s : State) : (push v s).inEnded = s.inEnded := rfl
@[simp] theorem push_inPos (v : Word) (s : State) : (push v s).inPos = s.inPos := rfl

@[simp] theorem pop_params (s : State) : ((pop s).2).params = s.params := rfl
@[simp] theorem pop_program (s : State) : ((pop s).2).program = s.program := rfl
@[simp] theorem pop_status (s : State) : ((pop s).2).status = s.status := rfl
@[simp] theorem pop_pc (s : State) : ((pop s).2).pc = s.pc := rfl
@[simp] theorem pop_stk (s : State) : ((pop s).2).stk = s.stk := rfl
@[simp] theorem pop_sp (s : State) : ((pop s).2).sp = s.sp - 1 := rfl
@[simp] theorem pop_heap (s : State) : ((pop s).2).heap = s.heap := rfl
@[simp] theorem pop_allocScript (s : State) : ((pop s).2).allocScript = s.allocScript := rfl
@[simp] theorem pop_allocDraws (s : State) : ((pop s).2).allocDraws = s.allocDraws := rfl
@[simp] theorem pop_outHist (s : State) : ((pop s).2).outHist = s.outHist := rfl
@[simp] theorem pop_inStream (s : State) : ((pop s).2).inStream = s.inStream := rfl
@[simp] theorem pop_inEnded (s : State) : ((pop s).2).inEnded = s.inEnded := rfl
@[simp] theorem pop_inPos (s : State) : ((pop s).2).inPos = s.inPos := rfl

@[simp] theorem out_params (bs : List Byte) (s : State) : (out bs s).params = s.params := rfl
@[simp] theorem out_program (bs : List Byte) (s : State) : (out bs s).program = s.program := rfl
@[simp] theorem out_status (bs : List Byte) (s : State) : (out bs s).status = s.status := rfl
@[simp] theorem out_pc (bs : List Byte) (s : State) : (out bs s).pc = s.pc := rfl
@[simp] theorem out_stk (bs : List Byte) (s : State) : (out bs s).stk = s.stk := rfl
@[simp] theorem out_sp (bs : List Byte) (s : State) : (out bs s).sp = s.sp := rfl
@[simp] theorem out_heap (bs : List Byte) (s : State) : (out bs s).heap = s.heap := rfl
@[simp] theorem out_allocScript (bs : List Byte) (s : State) : (out bs s).allocScript = s.allocScript := rfl
@[simp] theorem out_allocDraws (bs : List Byte) (s : State) : (out bs s).allocDraws = s.allocDraws := rfl
@[simp] theorem out_outHist (bs : List Byte) (s : State) : (out bs s).outHist = s.outHist ++ bs := rfl
@[simp] theorem out_inStream (bs : List Byte) (s : State) : (out bs s).inStream = s.inStream := rfl
@[simp] theorem out_inEnded (bs : List Byte) (s : State) : (out bs s).inEnded = s.inEnded := rfl
@[simp] theorem out_inPos (bs : List Byte) (s : State) : (out bs s).inPos = s.inPos := rfl

@[simp] theorem endInput_params (s : State) : (endInput s).params = s.params := rfl
@[simp] theorem endInput_program (s : State) : (endInput s).program = s.program := rfl
@[simp] theorem endInput_status (s : State) : (endInput s).status = s.status := rfl
@[simp] theorem endInput_pc (s : State) : (endInput s).pc = s.pc := rfl
@[simp] theorem endInput_stk (s : State) : (endInput s).stk = s.stk := rfl
@[simp] theorem endInput_sp (s : State) : (endInput s).sp = s.sp := rfl
@[simp] theorem endInput_heap (s : State) : (endInput s).heap = s.heap := rfl
@[simp] theorem endInput_allocScript (s : State) : (endInput s).allocScript = s.allocScript := rfl
@[simp] theorem endInput_allocDraws (s : State) : (endInput s).allocDraws = s.allocDraws := rfl
@[simp] theorem endInput_outHist (s : State) : (endInput s).outHist = s.outHist := rfl
@[simp] theorem endInput_inStream (s : State) : (endInput s).inStream = s.inStream := rfl
@[simp] theorem endInput_inEnded (s : State) : (endInput s).inEnded = true := rfl
@[simp] theorem endInput_inPos (s : State) : (endInput s).inPos = s.inPos := rfl

@[simp] theorem withFetchWord_params (s : State) (nbits w : Nat) : (s.withFetchWord nbits w).params = s.params := rfl
@[simp] theorem withFetchWord_program (s : State) (nbits w : Nat) : (s.withFetchWord nbits w).program = s.program.patch s.pc.toNat (tableBytes nbits w (longest s.params.width)) := rfl
@[simp] theorem withFetchWord_status (s : State) (nbits w : Nat) : (s.withFetchWord nbits w).status = .running := rfl
@[simp] theorem withFetchWord_pc (s : State) (nbits w : Nat) : (s.withFetchWord nbits w).pc = s.pc := rfl
@[simp] theorem withFetchWord_stk (s : State) (nbits w : Nat) : (s.withFetchWord nbits w).stk = s.stk := rfl
@[simp] theorem withFetchWord_sp (s : State) (nbits w : Nat) : (s.withFetchWord nbits w).sp = s.sp := rfl
@[simp] theorem withFetchWord_heap (s : State) (nbits w : Nat) : (s.withFetchWord nbits w).heap = s.heap := rfl
@[simp] theorem withFetchWord_allocScript (s : State) (nbits w : Nat) : (s.withFetchWord nbits w).allocScript = s.allocScript := rfl
@[simp] theorem withFetchWord_allocDraws (s : State) (nbits w : Nat) : (s.withFetchWord nbits w).allocDraws = s.allocDraws := rfl
@[simp] theorem withFetchWord_outHist (s : State) (nbits w : Nat) : (s.withFetchWord nbits w).outHist = s.outHist := rfl
@[simp] theorem withFetchWord_inStream (s : State) (nbits w : Nat) : (s.withFetchWord nbits w).inStream = s.inStream := rfl
@[simp] theorem withFetchWord_inEnded (s : State) (nbits w : Nat) : (s.withFetchWord nbits w).inEnded = s.inEnded := rfl
@[simp] theorem withFetchWord_inPos (s : State) (nbits w : Nat) : (s.withFetchWord nbits w).inPos = s.inPos := rfl

theorem pop_fst (s : State) : (pop s).1 = s.stk.getD (s.sp - 1) 0 := rfl

theorem supplyInput_of_ended {s : State} (h : s.inEnded = true) (bs : List Byte) : supplyInput bs s = s := by
  simp [supplyInput, h]

theorem supplyInput_of_open {s : State} (h : s.inEnded = false) (bs : List Byte) :
    supplyInput bs s = { s with inStream := s.inStream ++ bs } := by
  simp [supplyInput, h]

@[simp] theorem start_params (p : Params) (g : Program) : (State.start p g).params = p := rfl
@[simp] theorem start_program (p : Params) (g : Program) : (State.start p g).program = g := rfl
@[simp] theorem start_status (p : Params) (g : Program) : (State.start p g).status = .running := rfl
@[simp] theorem start_pc (p : Params) (g : Program) : (State.start p g).pc = 0 := rfl
@[simp] theorem start_stk (p : Params) (g : Program) : (State.start p g).stk = List.replicate p.stackCap 0 := rfl
@[simp] theorem start_sp (p : Params) (g : Program) : (State.start p g).sp = 0 := rfl
@[simp] theorem start_heap (p : Params) (g : Program) : (State.start p g).heap = [] := rfl
@[simp] theorem start_allocScript (p : Params) (g : Program) : (State.start p g).allocScript = [] := rfl
@[simp] theorem start_allocDraws (p : Params) (g : Program) : (State.start p g).allocDraws = 0 := rfl
@[simp] theorem start_outHist (p : Params) (g : Program) : (State.start p g).outHist = [] := rfl
@[simp] theorem start_inStream (p : Params) (g : Program) : (State.start p g).inStream = [] := rfl
@[simp] theorem start_inEnded (p : Params) (g : Program) : (State.start p g).inEnded = false := rfl
@[simp] theorem start_inPos (p : Params) (g : Program) : (State.start p g).inPos = 0 := rfl

end Sys2Proof.Machine
end

