-- ==== Sys2Proof/Laws/Ops.lean ====
section
/-! SUPPORT. One lemma for each shared operation that says what it can do: the frame of an instruction, the
stack, the binary and unary shapes. -/

namespace Sys2Proof.Machine

/-- R56, R57: all that an instruction can do. -/
theorem runInstr_cases (op : Mnemonic) (body : State → Effect) (s : State) :
    (s.sp < pops op ∧ runInstr op body s = .next (takeFault (.stackUnderflow op s.sp) s)) ∨
    (pops op ≤ s.sp ∧ s.params.stackCap < s.sp - pops op + pushes op ∧
      runInstr op body s = .next (takeFault (.stackOverflow op s.sp) s)) ∨
    (pops op ≤ s.sp ∧ s.sp - pops op + pushes op ≤ s.params.stackCap ∧
      runInstr op body s = commit op s (body s)) := by
  unfold runInstr depthFault
  by_cases h1 : s.sp < pops op
  · simp [h1]
  · by_cases h2 : s.params.stackCap < s.sp - pops op + pushes op
    · simp [h1, h2]; omega
    · simp [h1, h2]; omega

theorem runInstr_under {op : Mnemonic} {body : State → Effect} {s : State} (h : s.sp < pops op) :
    runInstr op body s = .next (takeFault (.stackUnderflow op s.sp) s) := by
  simp [runInstr, depthFault, h]

theorem runInstr_over {op : Mnemonic} {body : State → Effect} {s : State} (h : pops op ≤ s.sp)
    (h2 : s.params.stackCap < s.sp - pops op + pushes op) :
    runInstr op body s = .next (takeFault (.stackOverflow op s.sp) s) := by
  simp [runInstr, depthFault, Nat.not_lt.2 h, h2]

theorem runInstr_ok {op : Mnemonic} {body : State → Effect} {s : State} (h : pops op ≤ s.sp)
    (h2 : s.sp - pops op + pushes op ≤ s.params.stackCap) :
    runInstr op body s = commit op s (body s) := by
  simp [runInstr, depthFault, Nat.not_lt.2 h, Nat.not_lt.2 h2]

/-- A run of an instruction answers a next state, or waits: then the depth check passes and its body holds. -/
theorem runInstr_next_or_waiting (op : Mnemonic) (body : State → Effect) (s : State) :
    (∃ t, runInstr op body s = .next t) ∨
    (pops op ≤ s.sp ∧ s.sp - pops op + pushes op ≤ s.params.stackCap ∧ body s = .hold ∧
      runInstr op body s = .fault .waiting) := by
  rcases runInstr_cases op body s with ⟨_, h⟩ | ⟨_, _, h⟩ | ⟨h1, h2, h⟩
  · exact .inl ⟨_, h⟩
  · exact .inl ⟨_, h⟩
  · cases hb : body s <;> rw [hb] at h
    · exact .inl ⟨_, h⟩
    · exact .inl ⟨_, h⟩
    · exact .inl ⟨_, h⟩
    · exact .inr ⟨h1, h2, rfl, h⟩

/-! ## The live stack -/

theorem live_length {s : State} (h : s.sp ≤ s.stk.length) : s.live.length = s.sp := by
  simp [State.live, h]

/-- R16: a push adds one word on top. -/
theorem push_live {s : State} (h : s.sp < s.stk.length) (v : Word) : (push v s).live = s.live ++ [v] := by
  simp only [State.live, push_stk, push_sp]
  rw [List.take_add_one, List.getElem?_set_self h, List.take_set_of_le (Nat.le_refl _)]
  rfl

/-- R16: a pop answers the top word and leaves the words below it. -/
theorem pop_live {s : State} {below : List Word} {v : Word} (hs : s.sp ≤ s.stk.length)
    (h : s.live = below ++ [v]) : (pop s).1 = v ∧ (pop s).2.live = below ∧ (pop s).2.sp = below.length := by
  have hlen : s.sp = below.length + 1 := by
    have := congrArg List.length h
    rw [live_length hs] at this
    simpa using this
  have htop : s.stk[s.sp - 1]? = some v := by
    have := congrArg (fun l => l[s.sp - 1]?) h
    simp only [State.live, List.getElem?_take] at this
    rw [if_pos (by omega), List.getElem?_append_right (by omega)] at this
    rw [this, hlen]; simp
  refine ⟨?_, ?_, ?_⟩
  · rw [pop_fst, List.getD_eq_getElem?_getD, htop]; rfl
  · simp only [State.live, pop_stk, pop_sp]
    have : s.stk.take (s.sp - 1) = (s.stk.take s.sp).take (s.sp - 1) := by
      rw [List.take_take]; congr 1; omega
    rw [this, show s.stk.take s.sp = below ++ [v] from h, hlen]
    simp
  · rw [pop_sp, hlen]; rfl

/-! ## The binary and unary shapes (R64) -/

/-- The state a binary instruction that completes leaves, before the pc moves on. -/
theorem binary_ok {op : Mnemonic} {f : Word → Word → Except FaultCause Word} {s : State} {v : Word}
    (hp : pops op = 2) (hq : pushes op = 1) (h : 2 ≤ s.sp) (hcap : s.sp ≤ s.params.stackCap + 1)
    (hf : f (pop (pop s).2).1 (pop s).1 = .ok v) :
    binary op f s = .next { push v (pop (pop s).2).2 with pc := nextPc op s } := by
  unfold binary
  rw [runInstr_ok (by omega) (by omega)]
  simp only [hf, commit]

theorem binary_fault {op : Mnemonic} {f : Word → Word → Except FaultCause Word} {s : State} {c : FaultCause}
    (hp : pops op = 2) (hq : pushes op = 1) (h : 2 ≤ s.sp) (hcap : s.sp ≤ s.params.stackCap + 1)
    (hf : f (pop (pop s).2).1 (pop s).1 = .error c) :
    binary op f s = .next (takeFault c s) := by
  unfold binary
  rw [runInstr_ok (by omega) (by omega)]
  simp only [hf, commit]

theorem unary_ok {op : Mnemonic} {f : Word → Word} {s : State} (hp : pops op = 1) (hq : pushes op = 1)
    (h : 1 ≤ s.sp) (hcap : s.sp ≤ s.params.stackCap) :
    unary op f s = .next { push (f (pop s).1) (pop s).2 with pc := nextPc op s } := by
  unfold unary
  rw [runInstr_ok (by omega) (by omega)]
  rfl

/-- R64 over stack pictures: `... lhs rhs -> ... r`, and everything else as it was but for the pc. -/
theorem binary_live {op : Mnemonic} {f : Word → Word → Except FaultCause Word} {s : State} {below : List Word}
    {lhs rhs v : Word} (hp : pops op = 2) (hq : pushes op = 1) (hs : s.sp ≤ s.stk.length)
    (hcap : s.sp ≤ s.params.stackCap + 1)
    (hl : s.live = below ++ [lhs, rhs]) (hf : f lhs rhs = .ok v) :
    ∃ t, binary op f s = .next t ∧ t.live = below ++ [v] ∧ t.pc = nextPc op s ∧
      t = { s with stk := t.stk, sp := t.sp, pc := t.pc } := by
  have hl' : s.live = (below ++ [lhs]) ++ [rhs] := by simp [hl]
  obtain ⟨h1, h2, h3⟩ := pop_live hs hl'
  have hs1 : (pop s).2.sp ≤ (pop s).2.stk.length := by simp only [pop_sp, pop_stk]; omega
  obtain ⟨h4, h5, h6⟩ := pop_live hs1 h2
  have hsp : 2 ≤ s.sp := by
    have := congrArg List.length hl
    rw [live_length hs] at this
    simp at this; omega
  refine ⟨_, binary_ok hp hq hsp hcap (by rw [h1, h4]; exact hf), ?_, rfl, rfl⟩
  show (push v (pop (pop s).2).2).live = _
  rw [push_live (by simp only [pop_sp, pop_stk]; omega), h5]

end Sys2Proof.Machine
end

