-- ==== Sys2Proof/Laws/Step.lean ====
section
/-! SUPPORT. What a step comes to: every instruction runs in the frame of `runInstr`, and a running block
fetches it or takes the fault of fetching. -/

namespace Sys2Proof.Machine

/-- Every instruction is its own pseudocode run in the frame of R56 and R57. -/
theorem exec_runInstr (i : Instr) (s : State) : ∃ body, exec i s = runInstr i.mnemonic body s := by
  cases i <;> simp only [exec, binary, unary, Instr.mnemonic,
    execPush, execPop, execDup, execSwap, execRot, execAdd, execSub, execMult, execDiv, execMod, execPow,
    execEq, execNeq, execLt, execLte, execGt, execGte, execAnd, execOr, execXor, execNot, execBitwiseAnd,
    execBitwiseOr, execBitwiseXor, execBitwiseNot, execShiftLeft, execShiftRight, execAlloc, execFree,
    execSto, execRet, execJmp, execJmpIfTrue, execJmpIfFalse, execPrint, execPrintInt, execInput,
    execInputInt, execHalt] <;> exact ⟨_, rfl⟩

/-- Executing an instruction answers a next state, or waits for the host. -/
theorem exec_next_or_waiting (i : Instr) (s : State) :
    (∃ t, exec i s = .next t) ∨ exec i s = .fault .waiting := by
  obtain ⟨body, h⟩ := exec_runInstr i s
  rw [h]
  exact (runInstr_next_or_waiting i.mnemonic body s).imp id fun hw => hw.2.2.2

/-- All that a step can do. -/
theorem step_cases (s : State) :
    (s.status = .halted ∧ step s = .fault .halted) ∨
    (∃ r, s.status = .faulted r ∧ step s = .fault (.faulted r)) ∨
    (s.status = .running ∧ ∃ c, fetch s = .error c ∧ step s = .next (takeFault c s)) ∨
    (s.status = .running ∧ ∃ i, fetch s = .ok i ∧ step s = exec i s) := by
  unfold step
  cases hs : s.status with
  | halted => simp
  | faulted r => simp
  | running => cases hf : fetch s <;> simp

/-- A step that answers a next state was taken by a running block. -/
theorem running_of_step {s t : State} (h : step s = .next t) : s.status = .running := by
  rcases step_cases s with ⟨_, h'⟩ | ⟨r, _, h'⟩ | ⟨hr, _⟩ | ⟨hr, _⟩
  · rw [h'] at h; simp at h
  · rw [h'] at h; simp at h
  · exact hr
  · exact hr

/-- R53 to R55: a fetch that succeeds decodes the bytes at the pc. -/
theorem fetch_ok_iff {s : State} {i : Instr} :
    fetch s = .ok i ↔ ∃ rest, decode s.params (s.program.body.drop s.pc.toNat) = .ok (i, rest) := by
  unfold fetch
  cases h : decode s.params (s.program.body.drop s.pc.toNat) with
  | error e => simp
  | ok v => obtain ⟨j, rest⟩ := v; simp

theorem fetch_error {s : State} {e : DecodeError}
    (h : decode s.params (s.program.body.drop s.pc.toNat) = .error e) : fetch s = .error (fetchFault s e) := by
  simp [fetch, h]

end Sys2Proof.Machine
end

