-- ==== Sys2Proof/Laws/Effects.lean ====
section
/-! SUPPORT. Said once for all 39 instructions: what an instruction that completes leaves before the pc moves
on. A lemma about every instruction cites this one and unfolds no meaning. -/

namespace Sys2Proof.Machine

/-- What an instruction `i` that completes makes of `s`, before the pc moves on. -/
structure Completed (i : Instr) (s u : State) : Prop where
  params_eq : u.params = s.params
  program_eq : u.program = s.program
  status_eq : u.status = if i = .halt then .halted else s.status
  pc_eq : u.pc = s.pc
  sp_eq : u.sp = s.sp - pops i.mnemonic + pushes i.mnemonic
  stk_length : u.stk.length = s.stk.length
  stk_eq : ∀ k, k < s.sp - pops i.mnemonic ∨ s.sp - pops i.mnemonic + pushes i.mnemonic ≤ k → u.stk[k]? = s.stk[k]?
  heap_eq : (∀ n, i ≠ .alloc n) → i ≠ .free → i ≠ .sto → u.heap = s.heap
  allocScript_eq : u.allocScript = s.allocScript
  allocDraws_eq : (∀ n, i ≠ .alloc n) → u.allocDraws = s.allocDraws
  outHist_le : s.outHist <+: u.outHist
  outHist_eq : i ≠ .print → i ≠ .printInt → u.outHist = s.outHist
  inStream_eq : u.inStream = s.inStream
  inEnded_eq : u.inEnded = s.inEnded
  inPos_le : s.inPos ≤ u.inPos
  inPos_eq : i ≠ .input → i ≠ .inputInt → u.inPos = s.inPos

theorem alloc_spec {n : Word} {s u : State} {b : Word} (h : alloc n s = some (b, u)) :
    allocAnswer s = .base b ∧ Memory.admits s.params.width n.toNat b s.heap = true ∧
      u = { s with heap := Memory.insert ⟨b, n.toNat, []⟩ s.heap, allocDraws := s.allocDraws + 1 } := by
  unfold alloc at h
  split at h
  · simp at h
  · next b' hb =>
    split at h
    · next ha => simp only [Option.some.injEq, Prod.mk.injEq] at h; obtain ⟨rfl, rfl⟩ := h; exact ⟨hb, ha, rfl⟩
    · simp at h

theorem takeInput_done {scan : InputScan} {s u : State} (h : takeInput scan s = .done u) :
    ∃ v n, scan = .value v n ∧ u = push v { s with inPos := s.inPos + n } := by
  cases scan with
  | value v n => simp only [takeInput, Effect.done.injEq] at h; exact ⟨v, n, rfl, h.symm⟩
  | fail r => simp [takeInput] at h
  | wait => simp [takeInput] at h

theorem takeInput_hold {scan : InputScan} {s : State} : takeInput scan s = .hold ↔ scan = .wait := by
  cases scan <;> simp [takeInput]

theorem takeInput_not_jump (scan : InputScan) (s u : State) (a : Word) : takeInput scan s ≠ .jump u a := by
  cases scan <;> simp [takeInput]

theorem completed_binary {i : Instr} {s : State} (v : Word) (hp : pops i.mnemonic = 2) (hq : pushes i.mnemonic = 1)
    (hi : i ≠ .halt) (hs : 2 ≤ s.sp) : Completed i s (push v (pop (pop s).2).2) := by
  constructor <;> simp [hi, hp, hq, List.getElem?_set]
  · omega
  · intro k hk; (repeat' split) <;> omega

/-- Only the two input instructions can wait: every other one answers a next state. -/
theorem exec_next {i : Instr} (h1 : i ≠ .input) (h2 : i ≠ .inputInt) (s : State) : ∃ t, exec i s = .next t := by
  have key : ∀ op body, exec i s = runInstr op body s → body s ≠ .hold → ∃ t, exec i s = .next t := by
    intro op body he hb
    rw [he]
    exact (runInstr_next_or_waiting op body s).resolve_right fun hw => hb hw.2.2.1
  cases i
  case input => exact absurd rfl h1
  case inputInt => exact absurd rfl h2
  all_goals
    simp only [exec, binary, unary, execPush, execPop, execDup, execSwap, execRot, execAdd, execSub, execMult,
      execDiv, execMod, execPow, execEq, execNeq, execLt, execLte, execGt, execGte, execAnd, execOr, execXor, execNot,
      execBitwiseAnd, execBitwiseOr, execBitwiseXor, execBitwiseNot, execShiftLeft, execShiftRight, execAlloc,
      execFree, execSto, execRet, execJmp, execJmpIfTrue, execJmpIfFalse, execPrint, execPrintInt, execHalt] at key ⊢
    refine key _ _ rfl ?_
    (repeat' split) <;> simp

/-- An input instruction waits for the host exactly where the depth check passes and its scan waits (R97, R98). -/
theorem takeInput_waiting_iff {op : Mnemonic} (hp : pops op = 0) (hq : pushes op = 1) (scan : State → InputScan)
    (s : State) : runInstr op (fun s => takeInput (scan s) s) s = .fault .waiting ↔
      s.sp < s.params.stackCap ∧ scan s = .wait := by
  rcases runInstr_cases op (fun s => takeInput (scan s) s) s with ⟨h, _⟩ | ⟨_, h, h'⟩ | ⟨_, h, h'⟩
  · omega
  · rw [h']; simp; omega
  · rw [h']
    cases hs : scan s <;> simp [takeInput, commit]
    omega

/-- Every instruction is its pseudocode in the frame of R56 and R57, and its pseudocode, where the depth check
passes, leaves what `Completed` says. -/
theorem exec_completed (i : Instr) (s : State) : ∃ body, exec i s = runInstr i.mnemonic body s ∧
    (pops i.mnemonic ≤ s.sp → ∀ u, body s = .done u ∨ (∃ a, body s = .jump u a) → Completed i s u) := by
  cases i
  all_goals
    simp only [exec, binary, unary, Instr.mnemonic, execPush, execPop, execDup, execSwap, execRot, execAdd, execSub,
      execMult, execDiv, execMod, execPow, execEq, execNeq, execLt, execLte, execGt, execGte, execAnd, execOr, execXor,
      execNot, execBitwiseAnd, execBitwiseOr, execBitwiseXor, execBitwiseNot, execShiftLeft, execShiftRight, execAlloc,
      execFree, execSto, execRet, execJmp, execJmpIfTrue, execJmpIfFalse, execPrint, execPrintInt, execInput,
      execInputInt, execHalt]
    refine ⟨_, rfl, fun hp u hu => ?_⟩
    simp only [pops] at hp
    (repeat' split at hu) <;> try simp only [Effect.done.injEq, Effect.jump.injEq, reduceCtorEq, false_or, or_false,
      exists_false, exists_and_left] at hu
  case input | inputInt =>
    obtain hu | ⟨a, hu⟩ := hu
    · obtain ⟨v, n, _, rfl⟩ := takeInput_done hu
      constructor <;> (simp [pops, pushes, Instr.mnemonic, List.getElem?_set]; try omega)
    · exact absurd hu (takeInput_not_jump _ _ _ _)
  case jmp | jmpIfTrue.isTrue | jmpIfFalse.isFalse =>
    obtain ⟨rfl, _⟩ := hu
    constructor <;> simp [pops, pushes, Instr.mnemonic]
  all_goals
    subst hu
    first
      | exact completed_binary _ rfl rfl nofun hp
      | (try (have ha := alloc_spec ‹_›; rw [ha.2.2])
         constructor <;> simp [pops, pushes, Instr.mnemonic, List.getElem?_set] <;>
           first | omega | (intro k hk; repeat' split) <;> first | omega | rfl)

/-- All that an instruction that answers a next state can do: take a fault, or pass the depth check, complete, and
set the pc. -/
theorem exec_next_cases {i : Instr} {s t : State} (h : exec i s = .next t) :
    (∃ c, t = takeFault c s) ∨
    (pops i.mnemonic ≤ s.sp ∧ s.sp - pops i.mnemonic + pushes i.mnemonic ≤ s.params.stackCap ∧
      ∃ u a, Completed i s u ∧ t = { u with pc := a }) := by
  obtain ⟨body, he, hb⟩ := exec_completed i s
  rw [he] at h
  rcases runInstr_cases i.mnemonic body s with ⟨_, h'⟩ | ⟨_, _, h'⟩ | ⟨h1, h2, h'⟩ <;> rw [h'] at h
  · exact .inl ⟨_, (Host.Outcome.next.inj h).symm⟩
  · exact .inl ⟨_, (Host.Outcome.next.inj h).symm⟩
  · cases hc : body s with
    | done u => rw [hc] at h; exact .inr ⟨h1, h2, u, _, hb h1 u (.inl hc), (Host.Outcome.next.inj h).symm⟩
    | jump u a => rw [hc] at h; exact .inr ⟨h1, h2, u, _, hb h1 u (.inr ⟨a, hc⟩), (Host.Outcome.next.inj h).symm⟩
    | raised c => rw [hc] at h; exact .inl ⟨c, (Host.Outcome.next.inj h).symm⟩
    | hold => rw [hc] at h; cases h

end Sys2Proof.Machine
end

