-- ==== Sys2Proof/Laws/PerInstr.lean ====
section
/-! SUPPORT. What holds of each instruction as syntax, one lemma for each constructor. -/

namespace Sys2Proof.Laws.EncodeShape

/-- R43: an instruction is its mnemonic and its immediate, its encoding begins with its opcode byte, and the
encoding has the length of its opcode (R49). -/
def Statement (i : Instr) : Prop :=
  Instr.ofMnemonic i.mnemonic (i.immediate.getD 0) = i ∧
  (i.immediate.isSome = decide (formatOf i.mnemonic = .FI)) ∧
  ∀ p : Params, (encode p i).head? = some (opcodeOf p.opcodeMap i.mnemonic) ∧
    (encode p i).length = lengthOf p.width i.mnemonic

theorem push (imm : Word) : Statement (.push imm) :=
  ⟨rfl, rfl, fun p => ⟨rfl, by simp [encode, Instr.immediate, lengthOf, formatOf, Instr.mnemonic, Machine.bytesOfWord_length, Nat.add_comm]⟩⟩
theorem pop : Statement .pop := ⟨rfl, rfl, fun _ => ⟨rfl, rfl⟩⟩
theorem dup : Statement .dup := ⟨rfl, rfl, fun _ => ⟨rfl, rfl⟩⟩
theorem swap : Statement .swap := ⟨rfl, rfl, fun _ => ⟨rfl, rfl⟩⟩
theorem rot : Statement .rot := ⟨rfl, rfl, fun _ => ⟨rfl, rfl⟩⟩
theorem add : Statement .add := ⟨rfl, rfl, fun _ => ⟨rfl, rfl⟩⟩
theorem sub : Statement .sub := ⟨rfl, rfl, fun _ => ⟨rfl, rfl⟩⟩
theorem mult : Statement .mult := ⟨rfl, rfl, fun _ => ⟨rfl, rfl⟩⟩
theorem div : Statement .div := ⟨rfl, rfl, fun _ => ⟨rfl, rfl⟩⟩
theorem mod : Statement .mod := ⟨rfl, rfl, fun _ => ⟨rfl, rfl⟩⟩
theorem pow : Statement .pow := ⟨rfl, rfl, fun _ => ⟨rfl, rfl⟩⟩
theorem eq : Statement .eq := ⟨rfl, rfl, fun _ => ⟨rfl, rfl⟩⟩
theorem neq : Statement .neq := ⟨rfl, rfl, fun _ => ⟨rfl, rfl⟩⟩
theorem lt : Statement .lt := ⟨rfl, rfl, fun _ => ⟨rfl, rfl⟩⟩
theorem lte : Statement .lte := ⟨rfl, rfl, fun _ => ⟨rfl, rfl⟩⟩
theorem gt : Statement .gt := ⟨rfl, rfl, fun _ => ⟨rfl, rfl⟩⟩
theorem gte : Statement .gte := ⟨rfl, rfl, fun _ => ⟨rfl, rfl⟩⟩
theorem and : Statement .and := ⟨rfl, rfl, fun _ => ⟨rfl, rfl⟩⟩
theorem or : Statement .or := ⟨rfl, rfl, fun _ => ⟨rfl, rfl⟩⟩
theorem xor : Statement .xor := ⟨rfl, rfl, fun _ => ⟨rfl, rfl⟩⟩
theorem not : Statement .not := ⟨rfl, rfl, fun _ => ⟨rfl, rfl⟩⟩
theorem bitwiseAnd : Statement .bitwiseAnd := ⟨rfl, rfl, fun _ => ⟨rfl, rfl⟩⟩
theorem bitwiseOr : Statement .bitwiseOr := ⟨rfl, rfl, fun _ => ⟨rfl, rfl⟩⟩
theorem bitwiseXor : Statement .bitwiseXor := ⟨rfl, rfl, fun _ => ⟨rfl, rfl⟩⟩
theorem bitwiseNot : Statement .bitwiseNot := ⟨rfl, rfl, fun _ => ⟨rfl, rfl⟩⟩
theorem shiftLeft : Statement .shiftLeft := ⟨rfl, rfl, fun _ => ⟨rfl, rfl⟩⟩
theorem shiftRight : Statement .shiftRight := ⟨rfl, rfl, fun _ => ⟨rfl, rfl⟩⟩
theorem alloc (imm : Word) : Statement (.alloc imm) :=
  ⟨rfl, rfl, fun p => ⟨rfl, by simp [encode, Instr.immediate, lengthOf, formatOf, Instr.mnemonic, Machine.bytesOfWord_length, Nat.add_comm]⟩⟩
theorem free : Statement .free := ⟨rfl, rfl, fun _ => ⟨rfl, rfl⟩⟩
theorem sto : Statement .sto := ⟨rfl, rfl, fun _ => ⟨rfl, rfl⟩⟩
theorem ret : Statement .ret := ⟨rfl, rfl, fun _ => ⟨rfl, rfl⟩⟩
theorem jmp (imm : Word) : Statement (.jmp imm) :=
  ⟨rfl, rfl, fun p => ⟨rfl, by simp [encode, Instr.immediate, lengthOf, formatOf, Instr.mnemonic, Machine.bytesOfWord_length, Nat.add_comm]⟩⟩
theorem jmpIfTrue (imm : Word) : Statement (.jmpIfTrue imm) :=
  ⟨rfl, rfl, fun p => ⟨rfl, by simp [encode, Instr.immediate, lengthOf, formatOf, Instr.mnemonic, Machine.bytesOfWord_length, Nat.add_comm]⟩⟩
theorem jmpIfFalse (imm : Word) : Statement (.jmpIfFalse imm) :=
  ⟨rfl, rfl, fun p => ⟨rfl, by simp [encode, Instr.immediate, lengthOf, formatOf, Instr.mnemonic, Machine.bytesOfWord_length, Nat.add_comm]⟩⟩
theorem print : Statement .print := ⟨rfl, rfl, fun _ => ⟨rfl, rfl⟩⟩
theorem printInt : Statement .printInt := ⟨rfl, rfl, fun _ => ⟨rfl, rfl⟩⟩
theorem input : Statement .input := ⟨rfl, rfl, fun _ => ⟨rfl, rfl⟩⟩
theorem inputInt : Statement .inputInt := ⟨rfl, rfl, fun _ => ⟨rfl, rfl⟩⟩
theorem halt : Statement .halt := ⟨rfl, rfl, fun _ => ⟨rfl, rfl⟩⟩

end Sys2Proof.Laws.EncodeShape
end

