-- ==== Sys2Proof/Tests/Slice0.lean ====
section
/-! SUPPORT. The model's own tests: the WellFormed smoke, decoding of words written out from R43 and R45, one step
of each instruction by the vectors of spec/95_test_vectors.md (named in the comments), and for every obligation with
hypotheses states and operands that meet them. -/

namespace Sys2Proof.Tests

open Sys2Proof.Machine Sys2Proof.Claims

/-! ## Helpers -/

def small : Params := { Params.default with stackCap := 4 }
def small32 : Params := { small with width := .w32 }
def smallBca : Params := { small with rotMode := .bca }
def smallValue : Params := { small with powWide := .value }

/-- A running block at pc 0 with this body and these words on its stack. -/
def block (p : Params) (body : List Byte) (stack : List Word) : State :=
  { State.start p ⟨⟨1, 0, 0, BitVec.ofNat 32 body.length⟩, body⟩ with
    stk := stack ++ List.replicate (p.stackCap - stack.length) 0
    sp := stack.length }

def blk : List Byte → List Word → State := block small
def blk32 : List Byte → List Word → State := block small32

def withHeap (m : Memory) (s : State) : State := { s with heap := m }
def withAnswers (l : List AllocAnswer) (s : State) : State := { s with allocScript := l }
def withInput (bs : List Byte) (ended : Bool) (s : State) : State := { s with inStream := bs, inEnded := ended }

/-- The step goes on with this pc and stack. -/
def gives (s : State) (pc : Word) (live : List Word) : Bool :=
  match step s with
  | .next t => decide (t.status = .running ∧ t.pc = pc ∧ t.live = live)
  | _ => false

/-- The step takes this fault, and the rest is unchanged. -/
def faults (s : State) (c : FaultCause) : Bool :=
  match step s with
  | .next t => decide (t = { s with status := .faulted ⟨c, s.pc⟩ })
  | _ => false

/-- The step leaves this heap. -/
def leavesHeap (s : State) (m : Memory) : Bool :=
  match step s with
  | .next t => decide (t.heap = m)
  | _ => false

/-- The step leaves this output and this place in the input. -/
def leavesStreams (s : State) (bs : List Byte) (inPos : Nat) : Bool :=
  match step s with
  | .next t => decide (t.outHist = bs ∧ t.inPos = inPos)
  | _ => false

/-! ## The smoke test of WellFormed: each check refuses an ill-formed term -/

theorem test_wf_default : Params.default.Ok := by decide
theorem test_wf_stackCap : ¬ ({ Params.default with stackCap := 2 } : Params).Ok := by decide
theorem test_wf_map_short : ¬ OpcodeMapOk (Params.default.opcodeMap.take 38) := by decide
theorem test_wf_map_twice : ¬ OpcodeMapOk (0x01 :: Params.default.opcodeMap.drop 1) := by decide
theorem test_wf_map_99 : ¬ OpcodeMapOk (0x99 :: Params.default.opcodeMap.drop 1) := by decide
theorem test_wf_push : (Instr.push 0x100000000).wf .w32 = false := by decide
theorem test_wf_alloc : (Instr.alloc 0x100000000).wf .w32 = false := by decide
theorem test_wf_jmp : (Instr.jmp 0x100000000).wf .w32 = false := by decide
theorem test_wf_jmpIfTrue : (Instr.jmpIfTrue 0x100000000).wf .w32 = false := by decide
theorem test_wf_jmpIfFalse : (Instr.jmpIfFalse 0x100000000).wf .w32 = false := by decide

/-! ## Decoding of words written out from R45's bytes and R43's formats -/

theorem test_decode_stack :
    decode .default [0x00, 0xEF, 0xCD, 0xAB, 0x89, 0x67, 0x45, 0x23, 0x01] = .ok (.push 0x0123456789ABCDEF, []) ∧
    decode .default [0x01] = .ok (.pop, []) ∧
    decode .default [0x02] = .ok (.dup, []) ∧
    decode .default [0x03] = .ok (.swap, []) ∧
    decode .default [0x04] = .ok (.rot, []) :=
  ⟨rfl, rfl, rfl, rfl, rfl⟩

theorem test_decode_arithmetic :
    decode .default [0x05] = .ok (.add, []) ∧
    decode .default [0x06] = .ok (.sub, []) ∧
    decode .default [0x07] = .ok (.mult, []) ∧
    decode .default [0x08] = .ok (.div, []) ∧
    decode .default [0x09] = .ok (.mod, []) ∧
    decode .default [0x0A] = .ok (.pow, []) :=
  ⟨rfl, rfl, rfl, rfl, rfl, rfl⟩

theorem test_decode_comparison :
    decode .default [0x0B] = .ok (.eq, []) ∧
    decode .default [0x0C] = .ok (.neq, []) ∧
    decode .default [0x0D] = .ok (.lt, []) ∧
    decode .default [0x0E] = .ok (.lte, []) ∧
    decode .default [0x0F] = .ok (.gt, []) ∧
    decode .default [0x10] = .ok (.gte, []) :=
  ⟨rfl, rfl, rfl, rfl, rfl, rfl⟩

theorem test_decode_logical :
    decode .default [0x11] = .ok (.and, []) ∧
    decode .default [0x12] = .ok (.or, []) ∧
    decode .default [0x13] = .ok (.xor, []) ∧
    decode .default [0x14] = .ok (.not, []) :=
  ⟨rfl, rfl, rfl, rfl⟩

theorem test_decode_bitwise :
    decode .default [0x15] = .ok (.bitwiseAnd, []) ∧
    decode .default [0x16] = .ok (.bitwiseOr, []) ∧
    decode .default [0x17] = .ok (.bitwiseXor, []) ∧
    decode .default [0x18] = .ok (.bitwiseNot, []) ∧
    decode .default [0x19] = .ok (.shiftLeft, []) ∧
    decode .default [0x1A] = .ok (.shiftRight, []) :=
  ⟨rfl, rfl, rfl, rfl, rfl, rfl⟩

theorem test_decode_heap :
    decode .default [0x1B, 0x02, 0, 0, 0, 0, 0, 0, 0x80] = .ok (.alloc 0x8000000000000002, []) ∧
    decode .default [0x1C] = .ok (.free, []) ∧
    decode .default [0x1D] = .ok (.sto, []) ∧
    decode .default [0x1E] = .ok (.ret, []) :=
  ⟨rfl, rfl, rfl, rfl⟩

theorem test_decode_control :
    decode .default [0x1F, 0x45, 0x23, 0x01, 0, 0, 0, 0, 0] = .ok (.jmp 0x12345, []) ∧
    decode .default [0x20, 0x1D, 0, 0, 0, 0, 0, 0, 0] = .ok (.jmpIfTrue 29, []) ∧
    decode .default [0x21, 0x28, 0, 0, 0, 0, 0, 0, 0] = .ok (.jmpIfFalse 40, []) ∧
    decode .default [0x26] = .ok (.halt, []) :=
  ⟨rfl, rfl, rfl, rfl⟩

theorem test_decode_io :
    decode .default [0x22] = .ok (.print, []) ∧
    decode .default [0x23] = .ok (.printInt, []) ∧
    decode .default [0x24] = .ok (.input, []) ∧
    decode .default [0x25] = .ok (.inputInt, []) :=
  ⟨rfl, rfl, rfl, rfl⟩

/-- A word of 32 bits has an immediate of four bytes. -/
theorem test_decode_w32 : decode small32 [0x21, 0x11, 0, 0, 0, 0x26] = .ok (.jmpIfFalse 17, [0x26]) := rfl

/-- R45: another map decodes other bytes. -/
theorem test_decode_other_map :
    decode { small with opcodeMap := (List.range 39).map fun k => BitVec.ofNat 8 (k + 0x40) } [0x66] = .ok (.halt, []) :=
  rfl

/-- ENG2, ENG5, ENG6, ENG1: what is not an instruction is rejected by name. -/
theorem test_decode_rejects :
    decode .default [0x27] = .error (.unknownOpcode 0x27) ∧
    decode .default [0x99, 0, 0, 0, 0, 0, 0, 0, 0] = .error (.unknownOpcode 0x99) ∧
    decode .default [0x00, 0x05, 0x00] = .error .immediatePastEnd ∧ decode .default [] = .error .endOfBody :=
  ⟨rfl, rfl, rfl, rfl⟩

/-- The host's table words: eight bits, the operand word zero. -/
theorem test_table_words :
    decodeTableWord 8 0x00 = some (.push 0) ∧ decodeTableWord 8 0x21 = some (.jmpIfFalse 0) ∧
    decodeTableWord 8 0x26 = some .halt ∧ decodeTableWord 8 0x27 = none := ⟨rfl, rfl, rfl, rfl⟩

/-- The very next step after reset runs the instruction placed. -/
theorem test_withFetchWord :
    step (State.reset.withFetchWord 8 0x00) = exec (.push 0) (State.reset.withFetchWord 8 0x00) ∧
    step (State.reset.withFetchWord 8 0x05) = exec .add (State.reset.withFetchWord 8 0x05) ∧
    step (State.reset.withFetchWord 8 0x27) =
      .next (takeFault (.unknownOpcode 0x27) (State.reset.withFetchWord 8 0x27)) := ⟨rfl, rfl, rfl⟩

/-! ## Reset -/

theorem test_reset_memory_wf : Memory.wf .w64 State.reset.heap := by decide
/-- ENG1. -/
theorem test_reset_runs_off : step State.reset = .next (takeFault (.programOutOfBounds 0 1) State.reset) := rfl

/-! ## One step of each instruction -/

/-- STK3. -/
theorem test_push_max : gives (blk [0x00, 0xFF, 0xFF, 0xFF, 0xFF, 0xFF, 0xFF, 0xFF, 0xFF] []) 9 [0xFFFFFFFFFFFFFFFF] = true := by decide
/-- STK5. -/
theorem test_push_full : faults (blk [0x00, 0x01, 0x00, 0x00, 0x00, 0x00, 0x00, 0x00, 0x00] [0, 0, 0, 0]) (.stackOverflow .push 4) = true := by decide
/-- STK7. -/
theorem test_pop : gives (blk [0x01] [4, 9]) 1 [4] = true := by decide
/-- STK8. -/
theorem test_pop_empty : faults (blk [0x01] []) (.stackUnderflow .pop 0) = true := by decide
/-- STK9. -/
theorem test_dup : gives (blk [0x02] [7]) 1 [7, 7] = true := by decide
/-- STK11. -/
theorem test_dup_full : faults (blk [0x02] [0, 0, 0, 0]) (.stackOverflow .dup 4) = true := by decide
/-- STK12. -/
theorem test_swap : gives (blk [0x03] [1, 2]) 1 [2, 1] = true := by decide
/-- STK14. -/
theorem test_swap_one : faults (blk [0x03] [1]) (.stackUnderflow .swap 1) = true := by decide
/-- STK17. -/
theorem test_rot_bac : gives (blk [0x04] [9, 1, 2, 3]) 1 [9, 2, 1, 3] = true := by decide
/-- STK16. -/
theorem test_rot_bca : gives (block smallBca [0x04] [1, 2, 3]) 1 [2, 3, 1] = true := by decide
/-- ARI2. -/
theorem test_add_wraps : gives (blk [0x05] [0xFFFFFFFFFFFFFFFF, 1]) 1 [0] = true := by decide
/-- ARI3. -/
theorem test_add_w32 : gives (blk32 [0x05] [0xFFFFFFFF, 1]) 1 [0] = true := by decide
/-- ARI6. -/
theorem test_sub_wraps : gives (blk [0x06] [3, 5]) 1 [0xFFFFFFFFFFFFFFFE] = true := by decide
/-- ARI9. -/
theorem test_sub_w32 : gives (blk32 [0x06] [0, 1]) 1 [0xFFFFFFFF] = true := by decide
/-- ARI11. -/
theorem test_mult_wraps : gives (blk [0x07] [0xFFFFFFFFFFFFFFFF, 0xFFFFFFFFFFFFFFFF]) 1 [1] = true := by decide
/-- ARI14. -/
theorem test_mult_w32 : gives (blk32 [0x07] [0x10000, 0x10000]) 1 [0] = true := by decide
/-- ARI19. -/
theorem test_div_unsigned : gives (blk [0x08] [0xFFFFFFFFFFFFFFFF, 2]) 1 [0x7FFFFFFFFFFFFFFF] = true := by decide
/-- ARI20. -/
theorem test_div_zero : faults (blk [0x08] [7, 0]) (.divisionByZero 7) = true := by decide
/-- ARI25. -/
theorem test_mod : gives (blk [0x09] [0xFFFFFFFFFFFFFFFF, 10]) 1 [5] = true := by decide
/-- ARI26. -/
theorem test_mod_zero : faults (blk [0x09] [7, 0]) (.divisionByZero 7) = true := by decide
/-- ARI34. -/
theorem test_pow : gives (blk [0x0A] [3, 33]) 1 [0x13BFEFA65ABB83] = true := by decide
/-- ARI33. -/
theorem test_pow_wide : faults (blk [0x0A] [2, 53]) (.powOutOfRange 2 53) = true := by decide
/-- CMP2. -/
theorem test_eq_unsigned : gives (blk [0x0B] [0, 0xFFFFFFFFFFFFFFFF]) 1 [0] = true := by decide
/-- CMP1. -/
theorem test_eq : gives (blk [0x0B] [4, 4]) 1 [1] = true := by decide
/-- CMP4. -/
theorem test_neq : gives (blk [0x0C] [4, 5]) 1 [1] = true := by decide
/-- CMP5. -/
theorem test_neq_same : gives (blk [0x0C] [4, 4]) 1 [0] = true := by decide
/-- CMP9. -/
theorem test_lt : gives (blk [0x0D] [0, 0xFFFFFFFFFFFFFFFF]) 1 [1] = true := by decide
/-- CMP7. -/
theorem test_lt_same : gives (blk [0x0D] [5, 5]) 1 [0] = true := by decide
/-- CMP10. -/
theorem test_lte_same : gives (blk [0x0E] [5, 5]) 1 [1] = true := by decide
/-- CMP12. -/
theorem test_lte_unsigned : gives (blk [0x0E] [0xFFFFFFFFFFFFFFFF, 0]) 1 [0] = true := by decide
/-- CMP14. -/
theorem test_gt_unsigned : gives (blk [0x0F] [0xFFFFFFFFFFFFFFFF, 0]) 1 [1] = true := by decide
/-- CMP15. -/
theorem test_gt_same : gives (blk [0x0F] [5, 5]) 1 [0] = true := by decide
/-- CMP17. -/
theorem test_gte_same : gives (blk [0x10] [5, 5]) 1 [1] = true := by decide
/-- CMP18. -/
theorem test_gte_unsigned : gives (blk [0x10] [0, 0xFFFFFFFFFFFFFFFF]) 1 [0] = true := by decide
/-- LOG2. -/
theorem test_and : gives (blk [0x11] [2, 4]) 1 [1] = true := by decide
/-- LOG3. -/
theorem test_and_zero : gives (blk [0x11] [0, 7]) 1 [0] = true := by decide
/-- LOG7. -/
theorem test_or : gives (blk [0x12] [5, 7]) 1 [1] = true := by decide
/-- LOG6. -/
theorem test_or_zero : gives (blk [0x12] [0, 0]) 1 [0] = true := by decide
/-- LOG8. -/
theorem test_xor_both : gives (blk [0x13] [3, 5]) 1 [0] = true := by decide
/-- LOG9. -/
theorem test_xor_one : gives (blk [0x13] [0, 5]) 1 [1] = true := by decide
/-- LOG11. -/
theorem test_not_zero : gives (blk [0x14] [0]) 1 [1] = true := by decide
/-- LOG12. -/
theorem test_not_seven : gives (blk [0x14] [7]) 1 [0] = true := by decide
/-- BIT1. -/
theorem test_bitwiseAnd : gives (blk [0x15] [12, 10]) 1 [8] = true := by decide
/-- BIT3. -/
theorem test_bitwiseOr : gives (blk [0x16] [12, 10]) 1 [14] = true := by decide
/-- BIT5. -/
theorem test_bitwiseXor : gives (blk [0x17] [12, 10]) 1 [6] = true := by decide
/-- BIT8. -/
theorem test_bitwiseNot : gives (blk [0x18] [255]) 1 [0xFFFFFFFFFFFFFF00] = true := by decide
/-- BIT9. -/
theorem test_bitwiseNot_w32 : gives (blk32 [0x18] [0]) 1 [0xFFFFFFFF] = true := by decide
/-- BIT13. -/
theorem test_shiftLeft : gives (blk [0x19] [3, 63]) 1 [0x8000000000000000] = true := by decide
/-- BIT17. -/
theorem test_shiftLeft_w32 : faults (blk32 [0x19] [1, 32]) (.invalidShift 32) = true := by decide
/-- BIT19. -/
theorem test_shiftRight : gives (blk [0x1A] [0xFFFFFFFFFFFFFFFF, 63]) 1 [1] = true := by decide
/-- BIT22. -/
theorem test_shiftRight_64 : faults (blk [0x1A] [5, 64]) (.invalidShift 64) = true := by decide
/-- MEM3: the block before it owns one word of range. -/
theorem test_alloc :
    leavesHeap (withAnswers [.base 0x10008] (withHeap [⟨0x10000, 0, []⟩] (blk [0x1B, 1, 0, 0, 0, 0, 0, 0, 0] [])))
      [⟨0x10000, 0, []⟩, ⟨0x10008, 1, []⟩] = true ∧
    gives (withAnswers [.base 0x10008] (withHeap [⟨0x10000, 0, []⟩] (blk [0x1B, 1, 0, 0, 0, 0, 0, 0, 0] [])))
      9 [0x10008] = true := by decide
/-- MEM4: no base can do, whatever the oracle answers. -/
theorem test_alloc_cannot_fit :
    faults (withAnswers [.base 0x10000] (blk [0x1B, 0, 0, 0, 0, 0, 0, 0, 0x20] [])) (.allocationFailed 0x2000000000000000)
      = true := by decide
/-- MEM6. -/
theorem test_free : leavesHeap (withHeap [⟨0x10000, 2, []⟩] (blk [0x1C] [0x10000])) [] = true := by decide
/-- MEM8. -/
theorem test_free_interior :
    faults (withHeap [⟨0x10000, 2, []⟩] (blk [0x1C] [0x10008])) (.invalidFree 0x10008) = true := by decide
/-- MEM14: the words are an address and, on top, a value. -/
theorem test_sto : leavesHeap (withHeap [⟨0x10000, 2, [(1, 42)]⟩] (blk [0x1D] [0x10008, 7])) [⟨0x10000, 2, [(1, 7)]⟩]
    = true := by decide
/-- MEM15: one word past the end. -/
theorem test_sto_past : faults (withHeap [⟨0x10000, 2, []⟩] (blk [0x1D] [0x10010, 1]))
    (.invalidMemoryAccess 0x10010 .unmapped) = true := by decide
/-- MEM26. -/
theorem test_ret_w32 : gives (withHeap [⟨0x10000, 2, [(0, 5), (1, 6)]⟩] (blk32 [0x1E] [0x10004])) 1 [6] = true := by decide
/-- MEM23, MEM25. -/
theorem test_ret_faults :
    faults (withHeap [⟨0x10000, 1, []⟩] (blk [0x1E] [0x10000])) (.invalidMemoryAccess 0x10000 .uninitialized) = true ∧
    faults (withHeap [⟨0x10000, 1, [(0, 42)]⟩] (blk [0x1E] [0x10004])) (.invalidMemoryAccess 0x10004 .unmapped) = true := by
  decide
/-- CTL3. -/
theorem test_jmp : gives (blk [0x1F, 0x45, 0x23, 0x01, 0x00, 0x00, 0x00, 0x00, 0x00] []) 0x12345 [] = true := by decide
/-- ENG13. -/
theorem test_jmp_then_fetch : faults ({ blk [0x1F, 5, 0, 0, 0, 0, 0, 0, 0] [] with pc := 5 }) (.programOutOfBounds 5 9) = true := by decide
/-- CTL6, at offset 0. -/
theorem test_jmpIfTrue : gives (blk [0x20, 0x1D, 0x00, 0x00, 0x00, 0x00, 0x00, 0x00, 0x00] [0xFFFFFFFFFFFFFFFF]) 29 [] = true := by decide
/-- CTL5, at offset 0. -/
theorem test_jmpIfTrue_not : gives (blk [0x20, 0x1D, 0x00, 0x00, 0x00, 0x00, 0x00, 0x00, 0x00] [0]) 9 [] = true := by decide
/-- CTL10. -/
theorem test_jmpIfFalse : gives (blk [0x21, 0x28, 0x00, 0x00, 0x00, 0x00, 0x00, 0x00, 0x00] [5, 0]) 40 [5] = true := by decide
/-- CTL12. -/
theorem test_jmpIfFalse_not : gives (blk32 [0x21, 0x11, 0x00, 0x00, 0x00] [1]) 5 [] = true := by decide
/-- IO2: the low byte only. -/
theorem test_print : leavesStreams (blk [0x22] [321]) [0x41] 0 = true := by decide
/-- IO9. -/
theorem test_printInt_max : leavesStreams (blk [0x23] [0xFFFFFFFFFFFFFFFF])
    [0x31, 0x38, 0x34, 0x34, 0x36, 0x37, 0x34, 0x34, 0x30, 0x37, 0x33, 0x37, 0x30, 0x39, 0x35, 0x35, 0x31, 0x36, 0x31,
      0x35, 0x0A] 0 = true := by decide
/-- IO7. -/
theorem test_printInt_zero : leavesStreams (blk [0x23] [0]) [0x30, 0x0A] 0 = true := by decide
/-- IO12: a newline is not skipped. -/
theorem test_input : gives (withInput [0x0A, 0x37] true (blk [0x24] [])) 1 [10] = true := by decide
/-- R97: with no byte and no end of the stream there is no step. R98: the number may go on. -/
theorem test_input_held :
    step (blk [0x24] []) = .fault .waiting ∧
    step (withInput [0x20, 0x34] false (blk [0x25] [])) = .fault .waiting := ⟨rfl, rfl⟩
/-- IO14. -/
theorem test_input_end : faults (withInput [] true (blk [0x24] [])) (.inputError .endOfInput) = true := by decide
/-- IO16: the newline is left unread. -/
theorem test_inputInt :
    gives (withInput [0x20, 0x20, 0x34, 0x32, 0x0A] true (blk [0x25] [])) 1 [42] = true ∧
    leavesStreams (withInput [0x20, 0x20, 0x34, 0x32, 0x0A] true (blk [0x25] [])) [] 4 = true := by decide
/-- IO26, IO19, IO23. -/
theorem test_inputInt_faults :
    faults (withInput [0x34, 0x32, 0x39, 0x34, 0x39, 0x36, 0x37, 0x32, 0x39, 0x36] true (blk32 [0x25] []))
      (.inputError .outOfRange) = true ∧
    faults (withInput [0x2D, 0x35] true (blk [0x25] [])) (.inputError .notANumber) = true ∧
    faults (withInput [0x20, 0x20, 0x20] true (blk [0x25] [])) (.inputError .endOfInput) = true := by decide
/-- HLT1. -/
theorem test_halt : step (blk [0x26] [1, 2]) = .next { blk [0x26] [1, 2] with status := .halted, pc := 1 } := rfl
/-- R52: a block that has halted has no step. -/
theorem test_halt_stops : step { blk [0x26] [1, 2] with status := .halted, pc := 1 } = .fault .halted := rfl
/-- ENG7: the immediate bound comes before the depth check. ENG11: the depth check comes before the division. -/
theorem test_priority :
    faults (blk [0x00, 0x05, 0x00] [0, 0, 0, 0]) (.programOutOfBounds 0 9) = true ∧
    faults (blk [0x08] [7]) (.stackUnderflow .div 1) = true := by decide


/-! ## The loader, by the vectors of section 2.11 (engine version 1.2, illustrative) -/

def v12 : EngineVersion := ⟨1, 2, 0⟩

/-- LD1, with HALT for a body: accepted, the patch is not checked. -/
theorem test_load_accepts :
    load v12 small (.image [1, 0, 2, 0, 9, 0, 1, 0, 0, 0, 0x26]) = .started (.start small ⟨⟨1, 2, 9, 1⟩, [0x26]⟩) := rfl
/-- LD3, LD4, LD5, LD6. -/
theorem test_load_errors :
    load v12 small (.image [1, 0, 3, 0, 0, 0, 1, 0, 0, 0, 0x26]) = .failed .versionTooNew ∧
    load v12 small (.image [2, 0, 3, 0, 0, 0, 1, 0, 0, 0, 0x26]) = .failed .versionMismatch ∧
    load v12 small (.image [1, 0, 1, 0, 0, 0, 2, 0, 0, 0, 0x26]) = .failed .truncatedProgram ∧
    load v12 small (.image [1, 0, 2, 0, 0, 0, 0x15, 0, 0]) = .failed .truncatedProgram := ⟨rfl, rfl, rfl, rfl⟩
/-- LD7: bytes after the body are not part of the program. LD9: the size is unsigned. -/
theorem test_load_size :
    load v12 small (.image [1, 0, 0, 0, 0, 0, 1, 0, 0, 0, 0x26, 0x99, 0x99]) =
      .started (.start small ⟨⟨1, 0, 0, 1⟩, [0x26]⟩) ∧
    load v12 small (.image [1, 0, 0, 0, 0, 0, 0, 0, 0, 0x80, 1, 2, 3, 4]) = .failed .truncatedProgram := ⟨rfl, rfl⟩

/-! ## Witnesses: what meets the hypotheses of each obligation -/

/-- The next state, where there is one. -/
def after (o : Host.Outcome State Fault Refusal) (s : State) : State :=
  match o with
  | .next t => t
  | _ => s

/-- Scenario A's addition, in a block of four slots. -/
def sum : State := blk [0x05, 0x26] [5, 3]
/-- A block whose next instruction faults. -/
def zeroDivide : State := blk [0x08] [7, 0]
def halting : State := blk [0x26] [1, 2]
def halted : State := after (step halting) halting
def faulted : State := after (step zeroDivide) zeroDivide
/-- `JMP 0x12345`. -/
def farJump : State := blk [0x1F, 0x45, 0x23, 0x01, 0, 0, 0, 0, 0] []
/-- An `INPUT` for which the host has supplied nothing. -/
def waiting : State := blk [0x24] []
def heap2 : Memory := [⟨0x10000, 2, [(1, 42)]⟩]

theorem inv_sum : sum.Inv :=
  ⟨by decide, by decide, by decide, by decide, by decide, fun v _ => v.isLt, by decide, by decide, fun _ h => by cases h⟩
theorem inv_halting : halting.Inv :=
  ⟨by decide, by decide, by decide, by decide, by decide, fun v _ => v.isLt, by decide, by decide, fun _ h => by cases h⟩
theorem inv_zeroDivide : zeroDivide.Inv :=
  ⟨by decide, by decide, by decide, by decide, by decide, fun v _ => v.isLt, by decide, by decide, fun _ h => by cases h⟩
/-- The invariant also has a witness with a heap and a fault record. -/
theorem inv_faulted_with_heap : (withHeap heap2 faulted).Inv :=
  ⟨by decide, by decide, by decide, by decide, by decide, fun v _ => v.isLt, by decide, by decide,
    fun _ h => by cases h; rfl⟩

theorem witness_DecodeOfEncode :
    (Params.default.Ok ∧ (Instr.push 0xFFFFFFFFFFFFFFFF).wf .w64 = true) ∧
    (small32.Ok ∧ (Instr.jmpIfFalse 0xFFFFFFFF).wf small32.width = true) ∧ small.Ok ∧ Instr.halt.wf small.width = true := by
  decide
theorem witness_EncodeOfDecode :
    decode small32 [0x21, 0x11, 0, 0, 0, 0x26] = .ok (.jmpIfFalse 17, [0x26]) ∧
    decode small [0x26] = .ok (.halt, []) := ⟨rfl, rfl⟩
theorem witness_LengthByOpcode :
    decode small [0x1B, 2, 0, 0, 0, 0, 0, 0, 0, 0x26] = .ok (.alloc 2, [0x26]) ∧
    decode small [0x1C, 0x26] = .ok (.free, [0x26]) := ⟨rfl, rfl⟩
theorem witness_ImmediateIsLittleEndian :
    (fetch farJump = .ok (.jmp 0x12345) ∧ (Instr.jmp 0x12345).immediate = some 0x12345) ∧
    (1 : Word).toNat + farJump.params.width.bytes = farJump.program.body.length ∧
    farJump.program.body.length < (2 : Word).toNat + farJump.params.width.bytes := ⟨⟨rfl, rfl⟩, rfl, by decide⟩
theorem witness_IllegalBytesFault :
    (AtByte (blk [0x27] []) 0x27 ∧ ∀ m, opcodeOf small.opcodeMap m ≠ 0x27) ∧
    AtByte (blk [0x99] []) 0x99 ∧ small.Ok :=
  ⟨⟨⟨rfl, rfl⟩, fun m => by cases m <;> decide⟩, ⟨rfl, rfl⟩, by decide⟩
theorem witness_StepRunsDecodedInstruction :
    sum.status = .running ∧ decode sum.params (sum.program.body.drop sum.pc.toNat) = .ok (.add, [0x26]) := ⟨rfl, rfl⟩
theorem witness_StoppedBlockHasNoStep :
    halted.status = .halted ∧ faulted.status = .faulted ⟨.divisionByZero 7, 0⟩ := ⟨rfl, rfl⟩
/-- A block that goes on, and one that is held. -/
theorem witness_RunningBlockStepsUnlessHeld :
    (sum.status = .running ∧ held sum = false) ∧ waiting.status = .running ∧ held waiting = true :=
  ⟨⟨rfl, by decide⟩, rfl, by decide⟩
theorem witness_FetchPastBodyFaults :
    { sum with pc := 2 }.status = .running ∧ { sum with pc := 2 }.program.body.length = ({ sum with pc := 2 }.pc).toNat :=
  ⟨rfl, rfl⟩
theorem witness_ImmediatePastBodyFaults :
    (small.Ok ∧ Mnemonic.jmp ∈ [Mnemonic.push, .alloc, .jmp, .jmpIfTrue, .jmpIfFalse]) ∧
    (AtByte (blk [0x1F, 0, 0, 0, 0, 0, 0, 0] []) (opcodeOf small.opcodeMap .jmp) ∧
      (blk [0x1F, 0, 0, 0, 0, 0, 0, 0] []).program.body.length < 0 + 1 + small.width.bytes) ∧
    AtByte farJump (opcodeOf small.opcodeMap .jmp) ∧
      farJump.pc.toNat + 1 + farJump.params.width.bytes = farJump.program.body.length :=
  ⟨by decide, ⟨⟨rfl, rfl⟩, by decide⟩, ⟨rfl, rfl⟩, rfl⟩
/-- `ROT` one word short, and `DUP` on a full stack. -/
theorem witness_DepthCheckBySignature :
    ((Instr.rot.mnemonic, 3, 3) ∈ signatures ∧ (blk [0x04] [1, 2]).sp < 3) ∧
    (Instr.dup.mnemonic, 1, 2) ∈ signatures ∧ 1 ≤ (blk [0x02] [1, 2, 3, 4]).sp ∧
      small.stackCap < (blk [0x02] [1, 2, 3, 4]).sp - 1 + 2 := by decide
/-- The depth check's two faults at their boundaries, and an instruction's own fault. -/
theorem witness_FaultKindsByInstruction :
    ((blk [0x04] [1, 2]).status = .running ∧
      exec .rot (blk [0x04] [1, 2]) = .next (takeFault (.stackUnderflow .rot 2) (blk [0x04] [1, 2])) ∧
      (Instr.rot.mnemonic, 3, 3) ∈ signatures) ∧
    ((blk [0x02] [1, 2, 3, 4]).status = .running ∧
      exec .dup (blk [0x02] [1, 2, 3, 4]) = .next (takeFault (.stackOverflow .dup 4) (blk [0x02] [1, 2, 3, 4])) ∧
      (Instr.dup.mnemonic, 1, 2) ∈ signatures) ∧
    (zeroDivide.status = .running ∧ exec .div zeroDivide = .next faulted ∧
      faulted.status = .faulted ⟨.divisionByZero 7, 0⟩ ∧ (Instr.div.mnemonic, 2, 1) ∈ signatures) :=
  ⟨⟨rfl, rfl, by decide⟩, ⟨rfl, rfl, by decide⟩, rfl, rfl, rfl, by decide⟩
theorem witness_FaultsArePrecise :
    zeroDivide.status = .running ∧ step zeroDivide = .next faulted ∧ faulted.status = .faulted ⟨.divisionByZero 7, 0⟩ :=
  ⟨rfl, rfl, rfl⟩
theorem witness_EveryStepKeepsInvariant :
    (sum.Inv ∧ step sum = .next (after (step sum) sum)) ∧ zeroDivide.Inv ∧ step zeroDivide = .next faulted :=
  ⟨⟨inv_sum, rfl⟩, inv_zeroDivide, rfl⟩
theorem witness_InvariantHoldsAtReset :
    small32.Ok ∧ (⟨1, 0, 0, 1⟩ : Header).bodySize.toNat = [(0x26 : Byte)].length := by decide
theorem witness_HostMovesKeepInvariant : sum.Inv ∧ (withHeap heap2 faulted).Inv := ⟨inv_sum, inv_faulted_with_heap⟩
theorem witness_OnlyHaltAndFaultsWriteStatus :
    step sum = .next (after (step sum) sum) ∧ step halting = .next halted ∧ step zeroDivide = .next faulted ∧
    halted.status = .halted := ⟨rfl, rfl, rfl, rfl⟩
theorem witness_ConfigurationIsFixed : step sum = .next (after (step sum) sum) := rfl
theorem witness_StreamsChangeOnlyByTheirInstructions :
    exec .add sum = .next (after (exec .add sum) sum) ∧ Instr.add ≠ .print ∧ Instr.add ≠ .printInt ∧
    Instr.add ≠ .input ∧ Instr.add ≠ .inputInt := ⟨rfl, by decide, by decide, by decide, by decide⟩
theorem witness_HeapChangesOnlyByItsInstructions :
    exec .add sum = .next (after (exec .add sum) sum) ∧ (∀ n, Instr.add ≠ .alloc n) ∧ Instr.add ≠ .free ∧
    Instr.add ≠ .sto := ⟨rfl, nofun, nofun, nofun⟩
/-- On `[9 5 3]` the slot below the operands is 0, the first above the result is 2. -/
theorem witness_OnlySignatureSlotsAreWritten :
    exec .add (blk [0x05] [9, 5, 3]) = .next (after (exec .add (blk [0x05] [9, 5, 3])) sum) ∧
    (Instr.add.mnemonic, 2, 1) ∈ signatures ∧ 0 < (blk [0x05] [9, 5, 3]).sp - 2 ∧
    (blk [0x05] [9, 5, 3]).sp - 2 + 1 ≤ 2 := ⟨rfl, by decide, by decide, by decide⟩
/-- The slots at and above the stack pointer hold 0 in one state and 77 in the other. -/
theorem witness_DeadSlotsAreUnobservable :
    (SameButDeadSlots sum { sum with stk := [5, 3, 77, 77] } ∧ step sum = .next (after (step sum) sum)) ∧
    (SameButDeadSlots halted { halted with stk := [1, 2, 77, 77] } ∧ ∀ t, step halted ≠ .next t) ∧
    exec .pop sum = .next (after (exec .pop sum) sum) :=
  ⟨⟨⟨rfl, rfl, rfl⟩, rfl⟩, ⟨⟨rfl, rfl, rfl⟩, fun t h => by
    rw [show step halted = .fault .halted from rfl] at h; cases h⟩, rfl⟩
theorem witness_FetchedSuccessorDoesNotWrap : sum.Inv ∧ fetch sum = .ok .add := ⟨inv_sum, rfl⟩
theorem witness_ExitStatusOfEndedRun :
    (halting.Inv ∧ halting.status = .running ∧ step halting = .next halted ∧ exitStatus halted.status = some 0) ∧
    (zeroDivide.Inv ∧ zeroDivide.status = .running ∧ step zeroDivide = .next faulted ∧ exitStatus faulted.status = some 1) ∧
    sum.Inv ∧ sum.status = .running ∧ step sum = .next (after (step sum) sum) ∧
      exitStatus (after (step sum) sum).status = none :=
  ⟨⟨inv_halting, rfl, rfl, rfl⟩, ⟨inv_zeroDivide, rfl, rfl, rfl⟩, inv_sum, rfl, rfl, rfl⟩

/-- Three words in four slots, and four words. -/
def three : State := blk [] [1, 2, 3]
def full : State := blk [] [1, 2, 3, 4]
theorem stacked_three : Stacked three := ⟨rfl, by decide⟩
theorem stacked_full : Stacked full := ⟨rfl, by decide⟩
theorem stacked_empty : Stacked (blk [] []) := ⟨rfl, by decide⟩

/-- What `ImmediateChecked` assumes, one byte short, for each of the five opcodes. -/
theorem witness_ImmediateChecked :
    small.Ok ∧ (AtByte (blk [0x00, 0, 0, 0, 0, 0, 0, 0] []) (opcodeOf small.opcodeMap .push) ∧
      AtByte (blk [0x1B, 0, 0, 0, 0, 0, 0, 0] []) (opcodeOf small.opcodeMap .alloc) ∧
      AtByte (blk [0x1F, 0, 0, 0, 0, 0, 0, 0] []) (opcodeOf small.opcodeMap .jmp) ∧
      AtByte (blk [0x20, 0, 0, 0, 0, 0, 0, 0] []) (opcodeOf small.opcodeMap .jmpIfTrue) ∧
      AtByte (blk [0x21, 0, 0, 0, 0, 0, 0, 0] []) (opcodeOf small.opcodeMap .jmpIfFalse)) ∧
    (blk [0x00, 0, 0, 0, 0, 0, 0, 0] []).program.body.length < 0 + 1 + small.width.bytes :=
  ⟨by decide, ⟨⟨rfl, rfl⟩, ⟨rfl, rfl⟩, ⟨rfl, rfl⟩, ⟨rfl, rfl⟩, rfl, rfl⟩, by decide⟩
theorem witness_PushRule : (Stacked three ∧ three.sp < three.params.stackCap) ∧ full.sp = full.params.stackCap :=
  ⟨⟨stacked_three, by decide⟩, rfl⟩
theorem witness_PopDupSwapRules :
    (Stacked three ∧ three.live = [1, 2] ++ [3] ∧ three.live = [1] ++ [2, 3] ∧ 1 ≤ three.sp ∧ three.sp < three.params.stackCap) ∧
    exec .pop three = .next (after (exec .pop three) three) ∧ (blk [] []).sp = 0 ∧ (0 < full.sp ∧ full.sp = full.params.stackCap) ∧ (blk [] [7]).sp < 2 :=
  ⟨⟨stacked_three, rfl, rfl, by decide, by decide⟩, rfl, rfl, ⟨by decide, rfl⟩, by decide⟩
theorem witness_RotRule :
    (Stacked full ∧ full.live = [1] ++ [2, 3, 4] ∧ 3 ≤ full.sp ∧ full.params.rotMode = .bac) ∧
    (Stacked (block smallBca [] [1, 2, 3]) ∧ (block smallBca [] [1, 2, 3]).live = [] ++ [1, 2, 3] ∧
      3 ≤ (block smallBca [] [1, 2, 3]).sp ∧ (block smallBca [] [1, 2, 3]).params.rotMode = .bca) ∧ (blk [] [1, 2]).sp < 3 :=
  ⟨⟨stacked_full, rfl, by decide, rfl⟩, ⟨⟨rfl, by decide⟩, rfl, by decide, rfl⟩, by decide⟩
theorem witness_StackIsLastInFirstOut : Stacked (blk [] [9]) ∧ (blk [] [9]).sp + [(1 : Word), 2, 3].length = small.stackCap :=
  ⟨⟨rfl, by decide⟩, rfl⟩

/-- The operands of every binary rule, and a stack one word short of them. -/
theorem witness_WrappingArithmeticRules : (Stacked sum ∧ sum.live = [] ++ [5, 3]) ∧ (blk [] [5]).sp < 2 :=
  ⟨⟨⟨rfl, by decide⟩, rfl⟩, by decide⟩
/-- A divisor of 1 and a divisor of 0. -/
theorem witness_DivisionRules :
    (Stacked (blk [] [7, 1]) ∧ (blk [] [7, 1]).live = [] ++ [7, 1] ∧ (1 : Word).toNat ≠ 0) ∧
    (Stacked zeroDivide ∧ zeroDivide.live = [] ++ [7, 0] ∧ ¬ (0 : Word).toNat ≠ 0) ∧ (blk [] [7]).sp < 2 :=
  ⟨⟨⟨rfl, by decide⟩, rfl, by decide⟩, ⟨⟨rfl, by decide⟩, rfl, by decide⟩, by decide⟩
/-- `2^52` is the last power of 2 below the limit and `2^53` the limit (ARI32, ARI33). -/
theorem witness_PowRule :
    (Stacked (blk [] [2, 52]) ∧ (blk [] [2, 52]).live = [] ++ [2, 52] ∧
      (2 : Word).toNat ^ (52 : Word).toNat < 2 ^ min small.width.bits 53) ∧
    (Stacked (blk [] [2, 53]) ∧ (blk [] [2, 53]).live = [] ++ [2, 53] ∧
      2 ^ min small.width.bits 53 ≤ (2 : Word).toNat ^ (53 : Word).toNat ∧ small.powWide = .fault) ∧
    (Stacked (block smallValue [] [2, 53]) ∧ (block smallValue [] [2, 53]).live = [] ++ [2, 53] ∧
      2 ^ min smallValue.width.bits 53 ≤ (2 : Word).toNat ^ (53 : Word).toNat ∧ smallValue.powWide = .value) ∧
    (blk [] [2]).sp < 2 :=
  ⟨⟨⟨rfl, by decide⟩, rfl, by decide⟩, ⟨⟨rfl, by decide⟩, rfl, by decide, rfl⟩,
    ⟨⟨rfl, by decide⟩, rfl, by decide, rfl⟩, by decide⟩
theorem witness_ComparisonRules : (Stacked three ∧ three.live = [1] ++ [2, 3]) ∧ (blk [] [2]).sp < 2 :=
  ⟨⟨stacked_three, rfl⟩, by decide⟩
theorem witness_LogicalRules :
    (Stacked three ∧ three.live = [1] ++ [2, 3] ∧ three.live = [1, 2] ++ [3] ∧ three.params.width.fits 3) ∧
    (blk [] [2]).sp < 2 ∧ (blk [] []).sp < 1 := ⟨⟨stacked_three, rfl, rfl, by decide⟩, by decide, by decide⟩
theorem witness_BitwiseRules :
    (Stacked three ∧ three.live = [1] ++ [2, 3]) ∧
    (Stacked (blk32 [] [0xFFFFFFFF]) ∧ (blk32 [] [0xFFFFFFFF]).live = [] ++ [0xFFFFFFFF] ∧
      small32.width.fits 0xFFFFFFFF) ∧ (blk [] [2]).sp < 2 ∧ (blk [] []).sp < 1 :=
  ⟨⟨stacked_three, rfl⟩, ⟨⟨rfl, by decide⟩, rfl, by decide⟩, by decide, by decide⟩
/-- The last amount that shifts and the first that faults, at both widths. -/
theorem witness_ShiftRules :
    (Stacked (blk [] [1, 63]) ∧ (blk [] [1, 63]).live = [] ++ [1, 63] ∧ (63 : Word).toNat < small.width.bits) ∧
    (Stacked (blk [] [1, 64]) ∧ (blk [] [1, 64]).live = [] ++ [1, 64] ∧ ¬ (64 : Word).toNat < small.width.bits) ∧
    (Stacked (blk32 [] [1, 32]) ∧ (blk32 [] [1, 32]).live = [] ++ [1, 32] ∧ ¬ (32 : Word).toNat < small32.width.bits) ∧
    (blk [] [1]).sp < 2 :=
  ⟨⟨⟨rfl, by decide⟩, rfl, by decide⟩, ⟨⟨rfl, by decide⟩, rfl, by decide⟩, ⟨⟨rfl, by decide⟩, rfl, by decide⟩, by decide⟩

/-- An admissible answer next to a block of no words; the answer `Fail`; a size no base can hold, by one word. -/
theorem witness_AllocRule :
    (Stacked (withAnswers [.base 0x10008] (withHeap [⟨0x10000, 0, []⟩] three)) ∧
      (withAnswers [.base 0x10008] (withHeap [⟨0x10000, 0, []⟩] three)).sp < small.stackCap ∧
      [AllocAnswer.base 0x10008][three.allocDraws]? = some (.base 0x10008) ∧
      Admissible small.width (1 : Word).toNat 0x10008 [⟨0x10000, 0, []⟩]) ∧
    (Stacked (withAnswers [.fail] three) ∧ (withAnswers [.fail] three).sp < small.stackCap ∧
      (withAnswers [.fail] three).allocScript[(withAnswers [.fail] three).allocDraws]? = some .fail) ∧
    (Stacked three ∧ three.sp < small.stackCap ∧
      2 ^ small.width.bits = max (0x2000000000000000 : Word).toNat 1 * small.width.bytes) ∧
    full.sp = full.params.stackCap :=
  ⟨⟨⟨rfl, by decide⟩, by decide, rfl, by decide, by decide, by decide, by decide⟩, ⟨⟨rfl, by decide⟩, by decide, rfl⟩,
    ⟨stacked_three, by decide, by decide⟩, rfl⟩
theorem witness_AllocIsAdmissibleForEveryOracle : Stacked three ∧ three.sp < three.params.stackCap :=
  ⟨stacked_three, by decide⟩
/-- The last address of the block freed and the first beyond it; an address that is no base. -/
theorem witness_FreeRule :
    (Stacked (withHeap heap2 (blk [] [0x10000])) ∧ Memory.wf small.width heap2 ∧
      (withHeap heap2 (blk [] [0x10000])).live = [] ++ [0x10000] ∧ (⟨0x10000, 2, [(1, 42)]⟩ : Block) ∈ heap2 ∧
      (0x1000F : Word).toNat < (0x10000 : Word).toNat + 2 * small.width.bytes ∧
      (0x10000 : Word).toNat + 2 * small.width.bytes ≤ (0x10010 : Word).toNat) ∧
    (Stacked (withHeap heap2 (blk [] [0x10008])) ∧ (withHeap heap2 (blk [] [0x10008])).live = [] ++ [0x10008] ∧
      ∀ c ∈ heap2, c.base ≠ 0x10008) ∧ (blk [] []).sp = 0 :=
  ⟨⟨⟨rfl, by decide⟩, by decide, rfl, by decide, by decide, by decide⟩, ⟨⟨rfl, by decide⟩, rfl, by decide⟩, rfl⟩
/-- The last word of the block and the first past it. -/
theorem witness_StoRule :
    (Stacked (withHeap heap2 (blk [] [0x10008, 7])) ∧ (withHeap heap2 (blk [] [0x10008, 7])).live = [] ++ [0x10008, 7] ∧
      WordValid small.width 0x10008 heap2) ∧
    (Stacked (withHeap heap2 (blk [] [0x10010, 7])) ∧ (withHeap heap2 (blk [] [0x10010, 7])).live = [] ++ [0x10010, 7] ∧
      ¬ WordValid small.width 0x10010 heap2) ∧ (blk [] [7]).sp < 2 := by
  refine ⟨⟨⟨rfl, by decide⟩, rfl, ⟨0x10000, 2, [(1, 42)]⟩, by decide, 1, by decide, by decide⟩,
    ⟨⟨rfl, by decide⟩, rfl, ?_⟩, by decide⟩
  rintro ⟨c, hc, k, hk, h⟩
  simp only [heap2, List.mem_singleton] at hc
  subst hc
  have h1 : (0x10010 : Word).toNat = 0x10010 := rfl
  have h2 : (0x10000 : Word).toNat = 0x10000 := rfl
  simp only [small, Params.default, Width.bytes, h1, h2] at h hk
  omega
theorem witness_RetRule :
    (Stacked (withHeap heap2 (blk [] [0x10008])) ∧ (withHeap heap2 (blk [] [0x10008])).live = [] ++ [0x10008] ∧
      Memory.read small.width 0x10008 heap2 = .word 42) ∧
    (Stacked (withHeap heap2 (blk [] [0x10000])) ∧ (withHeap heap2 (blk [] [0x10000])).live = [] ++ [0x10000] ∧
      WordValid small.width 0x10000 heap2 ∧ ∀ v, Memory.read small.width 0x10000 heap2 ≠ .word v) ∧
    (Stacked (blk [] [0x10000]) ∧ (blk [] [0x10000]).live = [] ++ [0x10000] ∧
      ¬ WordValid small.width 0x10000 (blk [] [0x10000]).heap) ∧ (blk [] []).sp = 0 :=
  ⟨⟨⟨rfl, by decide⟩, rfl, rfl⟩,
    ⟨⟨rfl, by decide⟩, rfl, ⟨⟨0x10000, 2, [(1, 42)]⟩, by decide, 0, by decide, by decide⟩, fun _ h => by
      rw [show Memory.read small.width 0x10000 heap2 = .uninit from rfl] at h; cases h⟩,
    ⟨⟨rfl, by decide⟩, rfl, fun ⟨_, hc, _⟩ => by cases hc⟩, rfl⟩
/-- The same address twice, and two addresses. -/
theorem witness_LoadReturnsLatestStore :
    (Stacked (withHeap heap2 (blk [] [0x10000, 1, 0x10000, 2])) ∧
      (withHeap heap2 (blk [] [0x10000, 1, 0x10000, 2])).live = [] ++ [0x10000, 1, 0x10000, 2]) ∧
    (Stacked (withHeap heap2 (blk [] [0x10008, 1, 0x10000, 2])) ∧
      (withHeap heap2 (blk [] [0x10008, 1, 0x10000, 2])).live = [] ++ [0x10008, 1, 0x10000, 2]) ∧
    WordValid small.width 0x10000 heap2 ∧ WordValid small.width 0x10008 heap2 :=
  ⟨⟨⟨rfl, by decide⟩, rfl⟩, ⟨⟨rfl, by decide⟩, rfl⟩,
    ⟨⟨0x10000, 2, [(1, 42)]⟩, by decide, 0, by decide, by decide⟩,
    ⟨⟨0x10000, 2, [(1, 42)]⟩, by decide, 1, by decide, by decide⟩⟩

theorem witness_JumpRules :
    (Stacked three ∧ three.live = [1, 2] ++ [3] ∧ (3 : Word).toNat ≠ 0) ∧
    (Stacked zeroDivide ∧ zeroDivide.live = [7] ++ [0] ∧ (0 : Word).toNat = 0) ∧ (blk [] []).sp = 0 ∧
    { sum with pc := 2 }.status = .running ∧ { sum with pc := 2 }.program.body.length = ({ sum with pc := 2 }.pc).toNat :=
  ⟨⟨stacked_three, rfl, by decide⟩, ⟨⟨rfl, by decide⟩, rfl, rfl⟩, rfl, rfl, rfl⟩
theorem witness_JumpPastBodyFaultsAtTarget :
    Stacked farJump ∧ farJump.status = .running ∧ fetch farJump = .ok (.jmp 0x12345) ∧
    farJump.program.body.length ≤ (0x12345 : Word).toNat := ⟨⟨rfl, by decide⟩, rfl, rfl, by decide⟩
theorem witness_HaltRule :
    Stacked halting ∧ step halting = .next halted ∧ exitStatus halted.status = some 0 := ⟨⟨rfl, by decide⟩, rfl, rfl⟩
theorem witness_PrintRules : (Stacked three ∧ three.live = [1, 2] ++ [3]) ∧ (blk [] []).sp = 0 :=
  ⟨⟨stacked_three, rfl⟩, rfl⟩
/-- The last byte there is; none left and the stream ended; a full stack; none left and the stream not ended. -/
theorem witness_InputTakesRawByte :
    (Stacked (withInput [0x41] false three) ∧ (withInput [0x41] false three).sp < small.stackCap ∧
      (withInput [0x41] false three).inStream[(withInput [0x41] false three).inPos]? = some 0x41) ∧
    (Stacked (withInput [] true three) ∧ (withInput [] true three).inStream.length = (withInput [] true three).inPos ∧
      (withInput [] true three).inEnded = true) ∧ full.sp = full.params.stackCap ∧
    (Stacked three ∧ three.sp < small.stackCap ∧ three.inStream.length = three.inPos ∧ three.inEnded = false) :=
  ⟨⟨⟨rfl, by decide⟩, by decide, rfl⟩, ⟨⟨rfl, by decide⟩, rfl, rfl⟩, rfl, stacked_three, by decide, rfl, rfl⟩
/-- White space, one digit, the end; `2^32` at 32 bits; a sign; white space alone; a full stack; a number
that may go on. -/
theorem witness_InputIntReadsDecimal :
    (Stacked (withInput [0x0D, 0x39] true three) ∧ three.sp < small.stackCap ∧
      [(0x0D : Byte), 0x39] = [0x0D] ++ [0x39] ++ [] ∧ (∀ b ∈ [(0x0D : Byte)], White b) ∧
      (∀ b ∈ [(0x39 : Byte)], Digit b) ∧ numberOf [0x39] < 2 ^ small.width.bits) ∧
    ((∀ b ∈ [(0x34 : Byte), 0x32, 0x39, 0x34, 0x39, 0x36, 0x37, 0x32, 0x39, 0x36], Digit b) ∧ ¬ Digit 0x78 ∧
      2 ^ small32.width.bits = numberOf [0x34, 0x32, 0x39, 0x34, 0x39, 0x36, 0x37, 0x32, 0x39, 0x36]) ∧
    (¬ White 0x2D ∧ ¬ Digit 0x2D) ∧
    ((∀ b ∈ (withInput [0x20, 0x09] true three).inStream.drop 0, White b) ∧ (withInput [0x20, 0x09] true three).inEnded = true) ∧
    full.sp = full.params.stackCap ∧
    (Stacked (withInput [0x20, 0x34] false three) ∧ three.sp < small.stackCap ∧
      (withInput [0x20, 0x34] false three).inStream.drop 0 = [0x20] ++ [0x34] ∧
      (withInput [0x20, 0x34] false three).inEnded = false ∧ White 0x20 ∧ Digit 0x34) := by
  simp only [White, Digit]
  exact ⟨⟨⟨rfl, by decide⟩, by decide, rfl, by decide, by decide, by decide⟩, ⟨by decide, by decide, by decide⟩,
    by decide, ⟨by decide, rfl⟩, rfl, ⟨rfl, by decide⟩, by decide, rfl, rfl, by decide, by decide⟩
/-- Held at `INPUT`, and at `INPUT_INT`. -/
theorem witness_HeldInputHasNoStep :
    (Stacked waiting ∧ held waiting = true ∧ fetch waiting = .ok .input ∧ waiting.inPos = waiting.inStream.length ∧
      step waiting = .fault .waiting) ∧ held (withInput [0x20, 0x34] false (blk [0x25] [])) = true :=
  ⟨⟨⟨rfl, by decide⟩, by decide, rfl, rfl, rfl⟩, by decide⟩
theorem witness_InputTimingChangesNothing :
    (withInput [0x41] false (blk [0x24] [])).inPos ≤ (withInput [0x41] false (blk [0x24] [])).inStream.length ∧
    (withInput [0x41] false (blk [0x24] [])).inEnded = false ∧
    step (withInput [0x41] false (blk [0x24] [])) =
      .next (after (step (withInput [0x41] false (blk [0x24] []))) sum) := ⟨by decide, rfl, rfl⟩

theorem witness_HeaderRoundTrip :
    decodeHeader [1, 0, 2, 0, 7, 0, 0x15, 0, 0, 0, 0x26] = some (⟨1, 2, 7, 21⟩, [0x26]) := rfl
/-- Another major; a minor one too new; the supported minor itself. -/
theorem witness_LoaderVersionCheck :
    [(0x26 : Byte)].length = (⟨2, 0, 0, 1⟩ : Header).bodySize.toNat ∧ (2 : BitVec 16) ≠ v12.major ∧
    (1 : BitVec 16) = v12.major ∧ v12.minor.toNat < (3 : BitVec 16).toNat ∧ (2 : BitVec 16).toNat ≤ v12.minor.toNat := by
  decide
theorem witness_LoadingErrors :
    [(1 : Byte), 0, 2, 0, 0, 0, 0x15, 0, 0].length < 10 ∧
    ([(0x26 : Byte)].length < (⟨1, 2, 0, 2⟩ : Header).bodySize.toNat ∧ (⟨1, 2, 0, 2⟩ : Header).major = v12.major ∧
      (⟨1, 2, 0, 2⟩ : Header).minor.toNat ≤ v12.minor.toNat) ∧
    ((2 : BitVec 16) ≠ v12.major ∧ (1 : BitVec 16) = v12.major ∧ v12.minor.toNat < (3 : BitVec 16).toNat) ∧
    load v12 small .badCommandLine = .failed .usageError := ⟨by decide, by decide, by decide, rfl⟩
theorem witness_LoadStartsAtReset :
    small.Ok ∧ load v12 small (.image [1, 0, 2, 0, 9, 0, 1, 0, 0, 0, 0x26]) = .started (.start small ⟨⟨1, 2, 9, 1⟩, [0x26]⟩) ∧
    decode small [0x26] = .ok (.halt, []) := ⟨by decide, rfl, rfl⟩

end Sys2Proof.Tests
end

section
/-! PROOFS. The statements of 10_state.md: the invariant of the machine, what each part of the state is written by,
dead stack slots, and the stack's order. -/

namespace Sys2Proof.Machine

open Sys2Proof.Claims

/-! ## What a step that answers a next state can do -/

/-- `exec_next_cases` for a step: a fault, or the fetched instruction, completed. -/
theorem step_next_cases {s t : State} (h : step s = .next t) :
    (∃ c, t = takeFault c s) ∨
    ∃ i u a, fetch s = .ok i ∧ exec i s = .next t ∧
      s.sp - pops i.mnemonic + pushes i.mnemonic ≤ s.params.stackCap ∧ Completed i s u ∧
      t = { u with pc := a } := by
  rcases step_cases s with ⟨_, h'⟩ | ⟨_, _, h'⟩ | ⟨_, c, _, h'⟩ | ⟨_, i, hf, h'⟩ <;> rw [h'] at h
  · cases h
  · cases h
  · exact .inl ⟨c, (Host.Outcome.next.inj h).symm⟩
  · rcases exec_next_cases h with hc | ⟨_, hcap, u, a, hu, ht⟩
    · exact .inl hc
    · exact .inr ⟨i, u, a, hf, h, hcap, hu, ht⟩

/-- The rows of R50's table, as the statements copy it, are those the depth check uses. -/
theorem signatures_eq_pops_pushes : ∀ row ∈ signatures, row.2.1 = pops row.1 ∧ row.2.2 = pushes row.1 := by
  decide

/-! ## Every value stays a word, and the heap canonical -/

/-- The clauses of `State.Inv` about the values a state holds, for words of width `w`. What the other clauses say of
an instruction that completes stands in `Completed`. -/
structure State.WordsFit (w : Width) (s : State) : Prop where
  pc_fits : w.fits s.pc
  stk_fits : ∀ v ∈ s.stk, w.fits v
  heap_wf : Memory.wf w s.heap
  inPos_le : s.inPos ≤ s.inStream.length

theorem State.Inv.wordsFit {s : State} (h : s.Inv) : s.WordsFit s.params.width :=
  ⟨h.pc_fits, h.stk_fits, h.heap_wf, h.inPos_le⟩

/-- The same of an instruction's pseudocode, before the pc moves on. -/
def Effect.WordsFit (w : Width) : Effect → Prop
  | .done u => u.WordsFit w
  | .jump u target => u.WordsFit w ∧ w.fits target
  | .raised _ => True
  | .hold => True

namespace State.WordsFit

variable {w : Width} {s : State} (hs : s.WordsFit w)
include hs

theorem setPc {a : Word} (ha : w.fits a) : State.WordsFit w { s with pc := a } :=
  ⟨ha, hs.stk_fits, hs.heap_wf, hs.inPos_le⟩

theorem setHeap {m : Memory} (hm : Memory.wf w m) : State.WordsFit w { s with heap := m } :=
  ⟨hs.pc_fits, hs.stk_fits, hm, hs.inPos_le⟩

theorem takeFault (c : FaultCause) : (takeFault c s).WordsFit w :=
  ⟨hs.pc_fits, hs.stk_fits, hs.heap_wf, hs.inPos_le⟩

theorem out (bs : List Byte) : (out bs s).WordsFit w :=
  ⟨hs.pc_fits, hs.stk_fits, hs.heap_wf, hs.inPos_le⟩

theorem push {v : Word} (hv : w.fits v) : (push v s).WordsFit w where
  pc_fits := hs.pc_fits
  stk_fits u hu := (List.mem_or_eq_of_mem_set hu).elim (hs.stk_fits u) (· ▸ hv)
  heap_wf := hs.heap_wf
  inPos_le := hs.inPos_le

theorem pop : (pop s).2.WordsFit w :=
  ⟨hs.pc_fits, hs.stk_fits, hs.heap_wf, hs.inPos_le⟩

theorem pop_fst_fits : w.fits (Machine.pop s).1 := by
  rw [pop_fst]
  by_cases hk : s.sp - 1 < s.stk.length
  · rw [List.getD_eq_getElem _ _ hk]
    exact hs.stk_fits _ (List.getElem_mem hk)
  · rw [List.getD_eq_default _ _ (Nat.le_of_not_lt hk)]
    exact zero_fits w

end State.WordsFit

/-- The frame of an instruction (R56, R57) adds nothing but a narrowed pc or a record to what the pseudocode leaves. -/
theorem runInstr_wordsFit {op : Mnemonic} {body : State → Effect} {s t : State} (hs : s.WordsFit s.params.width)
    (h : runInstr op body s = .next t) (hb : (body s).WordsFit s.params.width) : t.WordsFit s.params.width := by
  rcases runInstr_cases op body s with ⟨_, h'⟩ | ⟨_, _, h'⟩ | ⟨_, _, h'⟩ <;> rw [h'] at h
  · exact Host.Outcome.next.inj h ▸ hs.takeFault _
  · exact Host.Outcome.next.inj h ▸ hs.takeFault _
  · cases he : body s <;> rw [he] at h hb
    case done u => exact Host.Outcome.next.inj h ▸ State.WordsFit.setPc hb (wrap_fits _ _)
    case jump u a => exact Host.Outcome.next.inj h ▸ hb.1.setPc hb.2
    case raised c => exact Host.Outcome.next.inj h ▸ hs.takeFault c
    case hold => cases h

theorem binary_wordsFit {op : Mnemonic} {f : Word → Word → Except FaultCause Word} {s t : State}
    (hs : s.WordsFit s.params.width)
    (hf : ∀ lhs rhs v, s.params.width.fits lhs → s.params.width.fits rhs → f lhs rhs = .ok v →
      s.params.width.fits v)
    (h : binary op f s = .next t) : t.WordsFit s.params.width := by
  refine runInstr_wordsFit hs h ?_
  cases hv : f (pop (pop s).2).1 (pop s).1 with
  | ok v =>
    simp only [hv]
    exact hs.pop.pop.push (hf _ _ v hs.pop.pop_fst_fits hs.pop_fst_fits hv)
  | error c => simp only [hv, Effect.WordsFit]

/-- R64 for an operation that never faults. -/
theorem binary_pure_wordsFit {op : Mnemonic} {f : Word → Word → Word} {s t : State} (hs : s.WordsFit s.params.width)
    (hf : ∀ lhs rhs, s.params.width.fits lhs → s.params.width.fits rhs → s.params.width.fits (f lhs rhs))
    (h : binary op (fun lhs rhs => .ok (f lhs rhs)) s = .next t) : t.WordsFit s.params.width :=
  binary_wordsFit hs (fun lhs rhs _ hl hr hv => Except.ok.inj hv ▸ hf lhs rhs hl hr) h

theorem unary_wordsFit {op : Mnemonic} {f : Word → Word} {s t : State} (hs : s.WordsFit s.params.width)
    (hf : ∀ v, s.params.width.fits (f v)) (h : unary op f s = .next t) : t.WordsFit s.params.width :=
  runInstr_wordsFit hs h (hs.pop.push (hf _))

/-! ### The operations that can fault answer words (R68 to R70, R85, R86) -/

/-- The shape of DIV, MOD and the shifts: a guard, then a narrowed result. -/
theorem guarded_wrap_fits {w : Width} {p : Prop} [Decidable p] {c : FaultCause} {x : Int} {v : Word}
    (h : (if p then .error c else .ok (wrap w x)) = Except.ok v) : w.fits v := by
  split at h
  · cases h
  · exact Except.ok.inj h ▸ wrap_fits _ _

theorem powWord_fits {p : Params} {lhs rhs v : Word} (h : powWord p lhs rhs = .ok v) : p.width.fits v := by
  unfold powWord at h
  split at h
  · exact Except.ok.inj h ▸ wrap_fits _ _
  · split at h
    · cases h
    · exact Except.ok.inj h ▸ wrap_fits _ _

/-! ### The heap and the input stream -/

/-- R35: an admissible base is a word. -/
theorem fits_of_admits {w : Width} {n : Nat} {b : Word} {m : Memory} (h : Memory.admits w n b m = true) :
    w.fits b := by
  obtain ⟨_, _, hle, _⟩ := admits_iff.1 h
  have hpos : 0 < max n 1 * w.bytes := Nat.mul_pos (by omega) (bytes_pos w)
  show b.toNat < 2 ^ w.bits
  omega

theorem alloc_wordsFit {n b : Word} {s u : State} (hs : s.WordsFit s.params.width) (h : alloc n s = some (b, u)) :
    (push b u).WordsFit s.params.width := by
  obtain ⟨_, hadm, rfl⟩ := alloc_spec h
  have hu : State.WordsFit s.params.width
      { s with heap := Memory.insert ⟨b, n.toNat, []⟩ s.heap, allocDraws := s.allocDraws + 1 } :=
    ⟨hs.pc_fits, hs.stk_fits, insert_wf hs.heap_wf hadm, hs.inPos_le⟩
  exact hu.push (fits_of_admits hadm)

theorem scanByte_value {w : Width} {ended : Bool} {bs : List Byte} {v : Word} {n : Nat}
    (h : scanByte ended bs = .value v n) : w.fits v ∧ n ≤ bs.length := by
  cases bs with
  | nil => cases ended <;> cases h
  | cons b rest =>
    obtain ⟨rfl, rfl⟩ := InputScan.value.inj h
    exact ⟨byte_fits w b, by simp⟩

theorem scanInt_value {w : Width} {ended : Bool} {bs : List Byte} {v : Word} {n : Nat}
    (h : scanInt w ended bs = .value v n) : w.fits v ∧ n ≤ bs.length := by
  have hlen := congrArg List.length (List.takeWhile_append_dropWhile (p := isSpace) (l := bs))
  unfold scanInt at h
  split at h
  · cases ended <;> cases h
  · next b rest hbs =>
    rw [List.length_append, hbs] at hlen
    have hdig := (List.takeWhile_sublist isDigit (l := b :: rest)).length_le
    split at h
    · simp only at h
      split at h
      · cases h
      · split at h
        · cases h
        · next hlt =>
          obtain ⟨rfl, rfl⟩ := InputScan.value.inj h
          exact ⟨Nat.lt_of_le_of_lt (Nat.mod_le _ _) (Nat.lt_of_not_le hlt), by omega⟩
    · cases h

/-- R97, R98: what an input instruction pushes is a word, and it takes no more than the host supplied. -/
theorem takeInput_wordsFit {scan : InputScan} {w : Width} {s : State} (hs : s.WordsFit w)
    (hscan : ∀ v n, scan = .value v n → w.fits v ∧ n ≤ (unread s).length) :
    (takeInput scan s).WordsFit w := by
  cases scan with
  | value v n =>
    obtain ⟨hv, hn⟩ := hscan v n rfl
    have hle := hs.inPos_le
    rw [unread, List.length_drop] at hn
    have hu : State.WordsFit w { s with inPos := s.inPos + n } :=
      ⟨hs.pc_fits, hs.stk_fits, hs.heap_wf, by show s.inPos + n ≤ s.inStream.length; omega⟩
    exact hu.push hv
  | fail r => trivial
  | wait => trivial

/-- No instruction with a well-formed immediate leaves a value that is no word, or a heap out of canonical form. -/
theorem exec_wordsFit {i : Instr} {s t : State} (hi : i.wf s.params.width = true) (hs : s.WordsFit s.params.width)
    (h : exec i s = .next t) : t.WordsFit s.params.width := by
  unfold exec at h
  cases i
  case push imm => exact runInstr_wordsFit hs h (hs.push (of_decide_eq_true hi))
  case pop => exact runInstr_wordsFit hs h hs.pop
  case dup => exact runInstr_wordsFit hs h ((hs.pop.push hs.pop_fst_fits).push hs.pop_fst_fits)
  case swap => exact runInstr_wordsFit hs h ((hs.pop.pop.push hs.pop_fst_fits).push hs.pop.pop_fst_fits)
  case rot =>
    have hc := hs.pop_fst_fits
    have hb := hs.pop.pop_fst_fits
    have ha := hs.pop.pop.pop_fst_fits
    have h3 := hs.pop.pop.pop
    refine runInstr_wordsFit hs h ?_
    dsimp only
    split
    · exact ((h3.push hb).push ha).push hc
    · exact ((h3.push hb).push hc).push ha
  case add | sub | mult => exact binary_pure_wordsFit hs (fun _ _ _ _ => wrap_fits _ _) h
  case div | mod | shiftLeft | shiftRight => exact binary_wordsFit hs (fun _ _ _ _ _ => guarded_wrap_fits) h
  case pow => exact binary_wordsFit hs (fun _ _ _ _ _ => powWord_fits) h
  case eq | neq | lt | lte | gt | gte | and | or | xor =>
    exact binary_pure_wordsFit hs (fun _ _ _ _ => boolWord_fits _ _) h
  case not => exact unary_wordsFit hs (fun _ => boolWord_fits _ _) h
  case bitwiseAnd => exact binary_pure_wordsFit hs (fun _ _ hl _ => and_fits hl) h
  case bitwiseOr => exact binary_pure_wordsFit hs (fun _ _ => or_fits) h
  case bitwiseXor => exact binary_pure_wordsFit hs (fun _ _ => xor_fits) h
  case bitwiseNot => exact unary_wordsFit hs (fun _ => wrap_fits _ _) h
  case alloc imm =>
    refine runInstr_wordsFit hs h ?_
    split
    · next ha => exact alloc_wordsFit hs ha
    · trivial
  case free =>
    refine runInstr_wordsFit hs h ?_
    dsimp only
    split
    · next hm => exact hs.pop.setHeap (release_wf hs.heap_wf hm)
    · trivial
  case sto =>
    refine runInstr_wordsFit hs h ?_
    dsimp only
    split
    · next hm => exact hs.pop.pop.setHeap (write_wf hs.heap_wf hs.pop_fst_fits hm)
    · trivial
  case ret =>
    refine runInstr_wordsFit hs h ?_
    dsimp only
    split
    · next hv => exact hs.pop.push (read_fits hs.heap_wf hv)
    · trivial
    · trivial
  case jmp imm => exact runInstr_wordsFit hs h ⟨hs, of_decide_eq_true hi⟩
  case jmpIfTrue imm =>
    refine runInstr_wordsFit hs h ?_
    dsimp only
    split
    · exact ⟨hs.pop, of_decide_eq_true hi⟩
    · exact hs.pop
  case jmpIfFalse imm =>
    refine runInstr_wordsFit hs h ?_
    dsimp only
    split
    · exact hs.pop
    · exact ⟨hs.pop, of_decide_eq_true hi⟩
  case print | printInt => exact runInstr_wordsFit hs h (hs.pop.out _)
  case input => exact runInstr_wordsFit hs h (takeInput_wordsFit hs fun _ _ => scanByte_value)
  case inputInt => exact runInstr_wordsFit hs h (takeInput_wordsFit hs fun _ _ => scanInt_value)
  case halt => exact runInstr_wordsFit hs h ⟨hs.pc_fits, hs.stk_fits, hs.heap_wf, hs.inPos_le⟩

/-- R9, R102: a fault keeps the invariant; the record names the pc. -/
theorem takeFault_inv {s : State} (hs : s.Inv) (c : FaultCause) : (takeFault c s).Inv :=
  { hs with faultPc_eq := fun _ hr => Status.faulted.inj hr ▸ rfl }

/-- Settles O15: a fault keeps the invariant, and what an instruction that completes leaves is given by `Completed`
and `exec_wordsFit`. -/
theorem everyStepKeepsInvariant : Obligations.EveryStepKeepsInvariant := by
  intro s t hs h
  rcases step_next_cases h with ⟨c, rfl⟩ | ⟨i, u, a, hf, he, hcap, hu, ht⟩
  · exact takeFault_inv hs c
  obtain ⟨rest, hdec⟩ := fetch_ok_iff.1 hf
  have hw := exec_wordsFit (decode_wf hdec) hs.wordsFit he
  have hparams : t.params = s.params := ht ▸ hu.params_eq
  have hprogram : t.program = s.program := ht ▸ hu.program_eq
  have hlen : t.stk.length = s.stk.length := ht ▸ hu.stk_length
  have hsp : t.sp = s.sp - pops i.mnemonic + pushes i.mnemonic := ht ▸ hu.sp_eq
  have hstatus : t.status = if i = .halt then .halted else .running := by
    rw [ht, ← running_of_step h]; exact hu.status_eq
  constructor
  · exact hparams ▸ hs.params_ok
  · exact hprogram ▸ hs.size_eq
  · exact hparams ▸ hw.pc_fits
  · rw [hlen, hparams]; exact hs.stk_length
  · rw [hsp, hparams]; exact hcap
  · exact hparams ▸ hw.stk_fits
  · exact hparams ▸ hw.heap_wf
  · exact hw.inPos_le
  · intro r hr
    rw [hstatus] at hr
    split at hr <;> cases hr

/-! ## What writes the status, the configuration, the streams, the heap and the slots -/

/-- Settles O18: by the cases of a step, and the status `Completed` gives. -/
theorem onlyHaltAndFaultsWriteStatus : Obligations.OnlyHaltAndFaultsWriteStatus := by
  refine ⟨rfl, fun s t h => ?_, fun s t hs h => hs (running_of_step h)⟩
  rcases step_next_cases h with ⟨c, rfl⟩ | ⟨i, u, a, hf, _, _, hu, rfl⟩
  · exact .inr (.inr ⟨_, rfl⟩)
  have hstatus := hu.status_eq
  rw [running_of_step h] at hstatus
  by_cases hi : i = .halt
  · exact .inr (.inl ⟨by simpa [hi] using hstatus, hi ▸ hf⟩)
  · exact .inl (by simpa [hi] using hstatus)

/-- Settles O19: a fault writes the status only, and `Completed` fixes both. -/
theorem configurationIsFixed : Obligations.ConfigurationIsFixed := by
  intro s t h
  rcases step_next_cases h with ⟨c, rfl⟩ | ⟨_, u, a, _, _, _, hu, rfl⟩
  · exact ⟨rfl, rfl⟩
  · exact ⟨hu.params_eq, hu.program_eq⟩

/-- Settles O20: a fault leaves the streams alone, and `Completed` gives the rest. -/
theorem streamsChangeOnlyByTheirInstructions : Obligations.StreamsChangeOnlyByTheirInstructions := by
  intro i s t h
  rcases exec_next_cases h with ⟨c, rfl⟩ | ⟨_, _, u, a, hu, rfl⟩
  · exact ⟨⟨[], List.append_nil _⟩, Nat.le_refl _, rfl, rfl, fun _ _ => rfl, fun _ _ => rfl⟩
  · exact ⟨hu.outHist_le, hu.inPos_le, hu.inStream_eq, hu.inEnded_eq, hu.outHist_eq, hu.inPos_eq⟩

/-- Settles O21: what an address reads depends on the heap alone, and that is unchanged. -/
theorem heapChangesOnlyByItsInstructions : Obligations.HeapChangesOnlyByItsInstructions := by
  intro i s t h halloc hfree hsto
  rcases exec_next_cases h with ⟨c, rfl⟩ | ⟨_, _, u, a, hu, rfl⟩
  · exact ⟨rfl, rfl, rfl, fun _ => rfl⟩
  · have hheap : u.heap = s.heap := hu.heap_eq halloc hfree hsto
    exact ⟨hheap, hu.allocDraws_eq halloc, hu.allocScript_eq, fun a => congrArg (Memory.read _ a) hheap⟩

/-- Settles O22: the row of R50 is the one the depth check uses, and `Completed` gives the slots outside it. -/
theorem onlySignatureSlotsAreWritten : Obligations.OnlySignatureSlotsAreWritten := by
  intro i s t p q k h hrow hk
  obtain ⟨hp, hq⟩ : p = pops i.mnemonic ∧ q = pushes i.mnemonic := signatures_eq_pops_pushes _ hrow
  subst hp hq
  rcases exec_next_cases h with ⟨c, rfl⟩ | ⟨_, _, u, a, hu, rfl⟩
  · rfl
  · exact hu.stk_eq k hk

/-! ## The pc does not wrap (R14) -/

/-- R26, R49: a fetched instruction lies within the body. -/
theorem fetch_within_body {s : State} {i : Instr} (h : fetch s = .ok i) :
    s.pc.toNat + (if i.immediate.isSome then 1 + s.params.width.bytes else 1) ≤ s.program.body.length := by
  obtain ⟨rest, hdec⟩ := fetch_ok_iff.1 h
  obtain ⟨b, tail, m, hbytes, _, hm⟩ := decode_cases hdec
  have hlen := congrArg List.length hbytes
  rw [List.length_drop, List.length_cons] at hlen
  obtain ⟨hf, rfl, _⟩ | ⟨hf, hw, _, rfl⟩ := hm
  · simp only [ofMnemonic_immediate, hf, reduceCtorEq, if_false, Option.isSome_none, Bool.false_eq_true]
    omega
  · simp only [ofMnemonic_immediate, hf, if_true, Option.isSome_some]
    omega

/-- R20, R115: the header counts the body's bytes in 32 bits, no more than a word has. -/
theorem State.Inv.body_length_lt {s : State} (hs : s.Inv) : s.program.body.length < 2 ^ s.params.width.bits := by
  have h32 : s.program.body.length < 2 ^ 32 := hs.size_eq ▸ s.program.header.bodySize.isLt
  have hle : 2 ^ 32 ≤ 2 ^ s.params.width.bits := by cases s.params.width <;> decide
  exact Nat.lt_of_lt_of_le h32 hle

/-- Settles O24: the instruction lies within the body, and the body's length is a word. -/
theorem fetchedSuccessorDoesNotWrap : Obligations.FetchedSuccessorDoesNotWrap :=
  fun _ _ hs h => ⟨fetch_within_body h, hs.body_length_lt⟩

/-! ## Pushes come off in reverse order -/

theorem exec_push {s : State} (v : Word) (h : s.sp < s.params.stackCap) :
    exec (.push v) s = .next { push v s with pc := nextPc .push s } := by
  rw [exec, execPush, runInstr_ok (op := .push) (Nat.zero_le _) h]
  rfl

theorem exec_print {s : State} (h : 1 ≤ s.sp) (hcap : s.sp ≤ s.params.stackCap) :
    exec .print s = .next { out [BitVec.ofNat 8 (pop s).1.toNat] (pop s).2 with pc := nextPc .print s } := by
  rw [exec, execPrint, runInstr_ok (op := .print) h (Nat.le_trans (Nat.sub_le _ _) hcap)]
  rfl

theorem execAll_cons {i : Instr} {is : List Instr} {s u : State} (h : exec i s = .next u) :
    execAll (i :: is) s = execAll is u := by
  simp only [execAll, h]

theorem execAll_append {is js : List Instr} {s u : State} (h : execAll is s = .next u) :
    execAll (is ++ js) s = execAll js u := by
  induction is generalizing s with
  | nil => cases h; rfl
  | cons i is ih =>
    simp only [List.cons_append, execAll] at h ⊢
    cases he : exec i s <;> simp only [he] at h ⊢
    · exact ih h
    · cases h
    · cases h

/-- What S3 does to a word: push it, run what leaves the stack as it was, and print it. -/
theorem execAll_push_print {is : List Instr} {s t : State} {v : Word} (hs : Stacked s) (hcap : s.sp < s.params.stackCap)
    (h : execAll is { push v s with pc := nextPc .push s } = .next t) (ht : Stacked t)
    (hlive : t.live = s.live ++ [v]) :
    ∃ u, execAll (.push v :: is ++ [.print]) s = .next u ∧ Stacked u ∧ u.live = s.live ∧ u.sp = s.sp ∧
      u.outHist = t.outHist ++ [BitVec.ofNat 8 v.toNat] := by
  obtain ⟨hlen, hsp⟩ := ht
  have hle : t.sp ≤ t.stk.length := hlen ▸ hsp
  obtain ⟨htop, hbelow, hsp'⟩ := pop_live hle hlive
  rw [live_length (hs.1 ▸ hs.2)] at hsp'
  have hpos : 1 ≤ t.sp := by
    rw [← live_length hle, hlive]
    simp
  rw [List.cons_append, execAll_cons (exec_push v hcap), execAll_append h, execAll_cons (exec_print hpos hsp), htop]
  exact ⟨_, rfl, ⟨hlen, Nat.le_trans (Nat.sub_le _ _) hsp⟩, hbelow, hsp', rfl⟩

theorem execAll_pushes_prints (ws : List Word) (s : State) (hs : Stacked s)
    (hcap : s.sp + ws.length ≤ s.params.stackCap) :
    ∃ t, execAll (ws.map .push ++ List.replicate ws.length .print) s = .next t ∧ Stacked t ∧ t.live = s.live ∧
      t.sp = s.sp ∧ t.outHist = s.outHist ++ ws.reverse.map fun v => BitVec.ofNat 8 v.toNat := by
  induction ws generalizing s with
  | nil => exact ⟨s, rfl, hs, rfl, rfl, (List.append_nil _).symm⟩
  | cons w ws ih =>
    rw [List.length_cons] at hcap
    have hroom : s.sp < s.params.stackCap := by omega
    have hpushed : Stacked { push w s with pc := nextPc .push s } :=
      ⟨(List.length_set ..).trans hs.1, hroom⟩
    obtain ⟨t, he, ht, hlive, _, hout⟩ := ih _ hpushed (by show s.sp + 1 + ws.length ≤ s.params.stackCap; omega)
    have hlive' : t.live = s.live ++ [w] := hlive.trans (push_live (hs.1 ▸ hroom) w)
    obtain ⟨u, hu, hst, hul, husp, huout⟩ := execAll_push_print hs hroom he ht hlive'
    refine ⟨u, ?_, hst, hul, husp, ?_⟩
    · rw [← hu, List.length_cons, List.replicate_succ']
      simp
    · rw [huout, hout]
      simp

/-- Settles O29, by induction on the words: the first one pushed is the last one printed. -/
theorem stackIsLastInFirstOut : Obligations.StackIsLastInFirstOut := by
  intro s ws hs hcap
  obtain ⟨t, he, _, hlive, hsp, hout⟩ := execAll_pushes_prints ws s hs hcap
  have hbyte (v : Word) : BitVec.ofNat 8 (v.toNat % 256) = BitVec.ofNat 8 v.toNat := BitVec.eq_of_toNat_eq (by simp)
  exact ⟨t, he, hlive, hsp, by simpa only [hbyte] using hout⟩

end Sys2Proof.Machine

/-! ## Dead slots (R17) -/

namespace Sys2Proof.Claims

open Sys2Proof.Machine

namespace SameButDeadSlots

theorem of_getElem? {s : State} {l : List Word} (hlen : l.length = s.stk.length)
    (hget : ∀ k < s.sp, l[k]? = s.stk[k]?) : SameButDeadSlots s { s with stk := l } := by
  refine ⟨List.ext_getElem? fun k => ?_, hlen, rfl⟩
  simp only [State.live, List.getElem?_take]
  split
  · next hk => exact hget k hk
  · rfl

variable {s s' : State} (h : SameButDeadSlots s s')
include h

theorem exists_stk : ∃ l, s' = { s with stk := l } := ⟨s'.stk, h.2.2⟩

theorem sp_eq : s'.sp = s.sp := by
  obtain ⟨l, rfl⟩ := h.exists_stk
  rfl

theorem status_eq : s'.status = s.status := by
  obtain ⟨l, rfl⟩ := h.exists_stk
  rfl

theorem fetch_eq : fetch s' = fetch s := by
  obtain ⟨l, rfl⟩ := h.exists_stk
  rfl

/-- The live slots of the two states are equal. -/
theorem getElem?_eq {k : Nat} (hk : k < s.sp) : s'.stk[k]? = s.stk[k]? := by
  obtain ⟨l, rfl⟩ := h.exists_stk
  have hget : (l.take s.sp)[k]? = (s.stk.take s.sp)[k]? := congrArg (·[k]?) h.1
  simpa only [List.getElem?_take, hk, if_true] using hget

/-- An update that neither reads nor writes the stack. -/
theorem map {f : State → State} (hf : ∀ u l, f { u with stk := l } = { f u with stk := l })
    (hstk : (f s).stk = s.stk) (hsp : (f s).sp = s.sp) : SameButDeadSlots (f s) (f s') := by
  obtain ⟨l, rfl⟩ := h.exists_stk
  have hlen : l.length = (f s).stk.length := hstk ▸ h.2.1
  rw [hf s l]
  exact of_getElem? hlen fun k hk => hstk ▸ h.getElem?_eq (hsp ▸ hk)

theorem setPc (a : Word) : SameButDeadSlots { s with pc := a } { s' with pc := a } :=
  h.map (f := fun u => { u with pc := a }) (fun _ _ => rfl) rfl rfl

theorem takeFault (c : FaultCause) : SameButDeadSlots (takeFault c s) (takeFault c s') :=
  h.map (fun _ _ => rfl) rfl rfl

theorem pop_fst_eq (hsp : 0 < s.sp) : (Machine.pop s').1 = (Machine.pop s).1 := by
  have hget := h.getElem?_eq (Nat.sub_one_lt_of_lt hsp)
  rw [pop_fst, pop_fst, List.getD_eq_getElem?_getD, List.getD_eq_getElem?_getD, h.sp_eq, hget]

theorem pop : SameButDeadSlots (pop s).2 (pop s').2 := by
  obtain ⟨l, rfl⟩ := h.exists_stk
  exact of_getElem? h.2.1 fun k hk => h.getElem?_eq (Nat.lt_of_lt_of_le hk (Nat.sub_le _ _))

theorem push {v v' : Word} (hv : v' = v) : SameButDeadSlots (push v s) (push v' s') := by
  subst hv
  obtain ⟨l, rfl⟩ := h.exists_stk
  have hlen : l.length = s.stk.length := h.2.1
  refine of_getElem? (by simp [hlen]) fun k hk => ?_
  rw [push_stk, List.getElem?_set, List.getElem?_set, hlen]
  split
  · rfl
  · next hne => exact h.getElem?_eq (Nat.lt_of_le_of_ne (Nat.le_of_lt_succ hk) (Ne.symm hne))

end SameButDeadSlots

/-- Two pseudocodes come to the same, but for dead slots. -/
inductive EffectsAlike : Effect → Effect → Prop where
  | done {u u' : State} (h : SameButDeadSlots u u') : EffectsAlike (.done u) (.done u')
  | jump {u u' : State} (h : SameButDeadSlots u u') (a : Word) : EffectsAlike (.jump u a) (.jump u' a)
  | raised (c : FaultCause) : EffectsAlike (.raised c) (.raised c)
  | hold : EffectsAlike .hold .hold

/-- Two steps answer the same, but for dead slots. -/
inductive OutcomesAlike : Host.Outcome State Fault Refusal → Host.Outcome State Fault Refusal → Prop where
  | next {t t' : State} (h : SameButDeadSlots t t') : OutcomesAlike (.next t) (.next t')
  | fault (r : Fault) : OutcomesAlike (.fault r) (.fault r)
  | refused (r : Refusal) : OutcomesAlike (.refused r) (.refused r)

theorem OutcomesAlike.of_next {t : State} {o : Host.Outcome State Fault Refusal} (h : OutcomesAlike (.next t) o) :
    ∃ t', o = .next t' ∧ SameButDeadSlots t t' := by
  cases h with
  | next h => exact ⟨_, rfl, h⟩

theorem OutcomesAlike.eq_of_no_next {o o' : Host.Outcome State Fault Refusal} (h : OutcomesAlike o o')
    (hno : ∀ t, o ≠ .next t) : o' = o := by
  cases h with
  | next _ => exact absurd rfl (hno _)
  | fault _ => rfl
  | refused _ => rfl

section

variable {s s' : State} (h : SameButDeadSlots s s')
include h

/-- R57: a commit of alike effects answers alike: it reads the pc and the parameters of `s`, not the slots. -/
theorem commit_alike (op : Mnemonic) {e e' : Effect} (he : EffectsAlike e e') :
    OutcomesAlike (commit op s e) (commit op s' e') := by
  obtain ⟨l, rfl⟩ := h.exists_stk
  cases he with
  | done hu => exact .next (hu.setPc _)
  | jump hu a => exact .next (hu.setPc a)
  | raised c => exact .next (h.takeFault c)
  | hold => exact .fault _

/-- R56, R57: the depth check reads `sp` alone, so only the pseudocode is left to compare, where the check passes. -/
theorem runInstr_alike {op : Mnemonic} {body : State → Effect}
    (hb : pops op ≤ s.sp → EffectsAlike (body s) (body s')) :
    OutcomesAlike (runInstr op body s) (runInstr op body s') := by
  obtain ⟨l, rfl⟩ := h.exists_stk
  rcases runInstr_cases op body s with ⟨h1, he⟩ | ⟨h1, h2, he⟩ | ⟨h1, h2, he⟩ <;> rw [he]
  · rw [runInstr_under (s := { s with stk := l }) h1]
    exact .next (h.takeFault _)
  · rw [runInstr_over (s := { s with stk := l }) h1 h2]
    exact .next (h.takeFault _)
  · rw [runInstr_ok (s := { s with stk := l }) h1 h2]
    exact commit_alike h op (hb h1)

theorem binary_alike {op : Mnemonic} (hp : pops op = 2) (f : Word → Word → Except FaultCause Word) :
    OutcomesAlike (binary op f s) (binary op f s') := by
  refine runInstr_alike h fun hsp => ?_
  have hrhs : (pop s').1 = (pop s).1 := h.pop_fst_eq (by omega)
  have hlhs : (pop (pop s').2).1 = (pop (pop s).2).1 := h.pop.pop_fst_eq (by rw [pop_sp]; omega)
  dsimp only
  rw [hrhs, hlhs]
  cases f (pop (pop s).2).1 (pop s).1 with
  | ok v => exact .done (h.pop.pop.push rfl)
  | error c => exact .raised c

theorem unary_alike {op : Mnemonic} (hp : pops op = 1) (f : Word → Word) :
    OutcomesAlike (unary op f s) (unary op f s') :=
  runInstr_alike h fun hsp => .done (h.pop.push (congrArg f (h.pop_fst_eq (by omega))))

/-- The allocator does not look at the stack. -/
theorem alloc_alike (n : Word) : (alloc n s = none ∧ alloc n s' = none) ∨
    ∃ b u u', alloc n s = some (b, u) ∧ alloc n s' = some (b, u') ∧ SameButDeadSlots u u' := by
  obtain ⟨l, rfl⟩ := h.exists_stk
  have hanswer : allocAnswer { s with stk := l } = allocAnswer s := rfl
  unfold alloc
  rw [hanswer]
  cases allocAnswer s with
  | fail => exact .inl ⟨rfl, rfl⟩
  | base b =>
    dsimp only
    split
    · exact .inr ⟨b, _, _, rfl, rfl, h.1, h.2.1, rfl⟩
    · exact .inl ⟨rfl, rfl⟩

theorem takeInput_alike (scan : InputScan) : EffectsAlike (takeInput scan s) (takeInput scan s') := by
  cases scan with
  | value v n =>
    exact .done ((h.map (f := fun u => { u with inPos := u.inPos + n }) (fun _ _ => rfl) rfl rfl).push rfl)
  | fail r => exact .raised _
  | wait => exact .hold

/-- R17: what each instruction pops lies below `sp` by its depth check, so the two runs pop the same words. -/
theorem exec_alike (i : Instr) : OutcomesAlike (exec i s) (exec i s') := by
  obtain ⟨l, rfl⟩ := h.exists_stk
  unfold exec
  cases i
  case push imm => exact runInstr_alike h fun _ => .done (h.push rfl)
  case pop => exact runInstr_alike h fun _ => .done h.pop
  case dup =>
    refine runInstr_alike h fun hsp => ?_
    have hv := h.pop_fst_eq hsp
    exact .done ((h.pop.push hv).push hv)
  case swap =>
    refine runInstr_alike h fun hsp => ?_
    have ha := h.pop_fst_eq (Nat.lt_of_lt_of_le Nat.two_pos hsp)
    have hb := h.pop.pop_fst_eq (Nat.sub_pos_of_lt hsp)
    exact .done ((h.pop.pop.push ha).push hb)
  case rot =>
    refine runInstr_alike h fun hsp => ?_
    have hsp : 3 ≤ s.sp := hsp
    have hc := h.pop_fst_eq (by omega)
    have hb := h.pop.pop_fst_eq (by rw [pop_sp]; omega)
    have ha := h.pop.pop.pop_fst_eq (by rw [pop_sp, pop_sp]; omega)
    dsimp only
    cases s.params.rotMode with
    | bac => exact .done (((h.pop.pop.pop.push hb).push ha).push hc)
    | bca => exact .done (((h.pop.pop.pop.push hb).push hc).push ha)
  case add | sub | mult | div | mod | pow => exact binary_alike h rfl _
  case eq | neq | lt | lte | gt | gte | and | or | xor => exact binary_alike h rfl _
  case bitwiseAnd | bitwiseOr | bitwiseXor | shiftLeft | shiftRight => exact binary_alike h rfl _
  case not | bitwiseNot => exact unary_alike h rfl _
  case alloc imm =>
    refine runInstr_alike h fun _ => ?_
    obtain ⟨hn, hn'⟩ | ⟨b, u, u', hu, hu', huu⟩ := alloc_alike h imm
    · rw [hn, hn']
      exact .raised _
    · rw [hu, hu']
      exact .done (huu.push rfl)
  case free =>
    refine runInstr_alike h fun hsp => ?_
    dsimp only [pop_heap]
    rw [h.pop_fst_eq hsp]
    cases Memory.release (pop s).1 s.heap with
    | some m => exact .done (h.pop.map (f := fun u => { u with heap := m }) (fun _ _ => rfl) rfl rfl)
    | none => exact .raised _
  case sto =>
    refine runInstr_alike h fun hsp => ?_
    have hv := h.pop_fst_eq (Nat.lt_of_lt_of_le Nat.two_pos hsp)
    have ha := h.pop.pop_fst_eq (Nat.sub_pos_of_lt hsp)
    dsimp only [pop_heap]
    rw [hv, ha]
    cases Memory.write s.params.width (pop (pop s).2).1 (pop s).1 s.heap with
    | some m => exact .done (h.pop.pop.map (f := fun u => { u with heap := m }) (fun _ _ => rfl) rfl rfl)
    | none => exact .raised _
  case ret =>
    refine runInstr_alike h fun hsp => ?_
    dsimp only [pop_heap]
    rw [h.pop_fst_eq hsp]
    cases Memory.read s.params.width (pop s).1 s.heap with
    | word v => exact .done (h.pop.push rfl)
    | unmapped => exact .raised _
    | uninit => exact .raised _
  case jmp imm => exact runInstr_alike h fun _ => .jump h imm
  case jmpIfTrue imm =>
    refine runInstr_alike h fun hsp => ?_
    dsimp only
    rw [h.pop_fst_eq hsp]
    split
    · exact .jump h.pop imm
    · exact .done h.pop
  case jmpIfFalse imm =>
    refine runInstr_alike h fun hsp => ?_
    dsimp only
    rw [h.pop_fst_eq hsp]
    split
    · exact .done h.pop
    · exact .jump h.pop imm
  case print | printInt =>
    refine runInstr_alike h fun hsp => ?_
    dsimp only
    rw [h.pop_fst_eq hsp]
    exact .done (h.pop.map (fun _ _ => rfl) rfl rfl)
  case input => exact runInstr_alike h fun _ => takeInput_alike h _
  case inputInt => exact runInstr_alike h fun _ => takeInput_alike h _
  case halt =>
    exact runInstr_alike h fun _ =>
      .done (h.map (f := fun u => { u with status := .halted }) (fun _ _ => rfl) rfl rfl)

theorem step_alike : OutcomesAlike (step s) (step s') := by
  unfold step
  rw [h.status_eq, h.fetch_eq]
  cases s.status with
  | halted => exact .fault _
  | faulted r => exact .fault _
  | running =>
    cases fetch s with
    | error c => exact .next (h.takeFault c)
    | ok i => exact exec_alike h i

end

theorem exec_pop_stk {s t : State} (h : exec .pop s = .next t) : t.stk = s.stk := by
  rcases exec_next_cases h with ⟨c, rfl⟩ | ⟨_, _, u, a, hu, rfl⟩
  · rfl
  · exact List.ext_getElem? fun k => hu.stk_eq k (Nat.lt_or_ge k _)

/-- Settles O23: an instruction reads only slots its depth check found live, so that the two runs differ nowhere. -/
theorem deadSlotsAreUnobservable : Obligations.DeadSlotsAreUnobservable := by
  refine ⟨fun s s' t hs h => ?_, fun s s' hs hno => (step_alike hs).eq_of_no_next hno, fun s t => exec_pop_stk⟩
  have hstep := step_alike hs
  rw [h] at hstep
  exact hstep.of_next

end Sys2Proof.Claims
end

section
/-! PROOFS. The statements of 20_memory.md: what ALLOC, FREE, STO and RET make of the heap, and the little-endian
words of the program body. -/

namespace Sys2Proof.Claims

open Sys2Proof.Machine

/-! ## Stacked states: the slots and the live words (R15, R16) -/

namespace Stacked

variable {s : State} (hs : Stacked s)
include hs

theorem sp_le_length : s.sp ≤ s.stk.length := hs.1 ▸ hs.2

theorem sp_eq {l : List Word} (h : s.live = l) : s.sp = l.length :=
  h ▸ (live_length hs.sp_le_length).symm

theorem pop : Stacked (Machine.pop s).2 := ⟨hs.1, Nat.le_trans (Nat.sub_le _ _) hs.2⟩

/-- R16: two pops answer the two top words, the upper one first. -/
theorem pop_pop_live {below : List Word} {x y : Word} (h : s.live = below ++ [x, y]) :
    (Machine.pop s).1 = y ∧ (Machine.pop (Machine.pop s).2).1 = x ∧
      (Machine.pop (Machine.pop s).2).2.live = below ∧ (Machine.pop (Machine.pop s).2).2.sp = below.length := by
  have h' : s.live = (below ++ [x]) ++ [y] := by simp [h]
  obtain ⟨hy, hlive, _⟩ := pop_live hs.sp_le_length h'
  exact ⟨hy, pop_live hs.pop.sp_le_length hlive⟩

end Stacked

end Sys2Proof.Claims

namespace Sys2Proof.Machine

open Sys2Proof.Claims

/-! ## Little-endian words of the body (R27, R28, R44) -/

theorem littleEndian_succ (body : List Byte) (a n : Nat) :
    littleEndian body a (n + 1) = (body.getD a 0).toNat + 256 * littleEndian body (a + 1) n := by
  have hterm (j : Nat) : (body.getD (a + (j + 1)) 0).toNat * 2 ^ (8 * (j + 1)) =
      256 * ((body.getD (a + 1 + j) 0).toNat * 2 ^ (8 * j)) := by
    rw [Nat.mul_succ, Nat.pow_add, show a + (j + 1) = a + 1 + j by omega]
    ring
  simp only [littleEndian, List.range_succ_eq_map, List.map_cons, List.map_map, List.sum_cons,
    Function.comp_def, Nat.succ_eq_add_one, hterm, List.sum_map_mul_left]
  simp

/-- The decoder's value of a run of body bytes is the sum of R27; bytes past the end weigh nothing in either. -/
theorem wordOfBytes_take_drop (body : List Byte) (a n : Nat) :
    wordOfBytes ((body.drop a).take n) = littleEndian body a n := by
  induction n generalizing a with
  | zero => rfl
  | succ n ih =>
    rw [littleEndian_succ, ← ih (a + 1)]
    by_cases ha : a < body.length
    · rw [List.drop_eq_getElem_cons ha, List.take_succ_cons, wordOfBytes, List.getD_eq_getElem _ _ ha]
    · have hle : body.length ≤ a := Nat.le_of_not_lt ha
      rw [List.drop_eq_nil_of_le hle, List.drop_eq_nil_of_le (Nat.le_succ_of_le hle), List.getD_eq_default _ _ hle]
      simp [wordOfBytes]

/-- A word of the body fits in the 64 bits that hold it. -/
theorem ofNat_wordOfBytes_toNat (w : Width) (body : List Byte) (a : Nat) :
    (BitVec.ofNat 64 (wordOfBytes ((body.drop a).take w.bytes))).toNat = littleEndian body a w.bytes := by
  have hlt := wordOfBytes_lt ((body.drop a).take w.bytes)
  have hle : 8 * ((body.drop a).take w.bytes).length ≤ 64 := by
    have := List.length_take_le w.bytes (body.drop a)
    have := bits_le w
    have := bits_eq w
    omega
  rw [BitVec.toNat_ofNat, Nat.mod_eq_of_lt (Nat.lt_of_lt_of_le hlt (Nat.pow_le_pow_right (by decide) hle)),
    wordOfBytes_take_drop]

theorem fetch_immediate {s : State} {i : Instr} {imm : Word} (h : fetch s = .ok i) (hi : i.immediate = some imm) :
    imm.toNat = littleEndian s.program.body (s.pc.toNat + 1) s.params.width.bytes := by
  obtain ⟨rest, hdec⟩ := fetch_ok_iff.1 h
  obtain ⟨b, tail, m, hbytes, _, ⟨hf, rfl, _⟩ | ⟨hf, _, _, rfl⟩⟩ := decode_cases hdec
  · simp [ofMnemonic_immediate, hf] at hi
  · have htail : s.program.body.drop (s.pc.toNat + 1) = tail := by
      rw [← List.drop_drop, hbytes, List.drop_one, List.tail_cons]
    rw [ofMnemonic_immediate, if_pos hf, ← htail] at hi
    rw [← Option.some.inj hi, ofNat_wordOfBytes_toNat]

/-- Settles O5: the bytes a word is read from are those of the body at its offset. -/
theorem immediateIsLittleEndian : Obligations.ImmediateIsLittleEndian := by
  refine ⟨fun s i imm => fetch_immediate, fun s a h => ?_, fun s a h => if_pos h⟩
  exact ⟨_, if_neg (Nat.not_lt.2 h), ofNat_wordOfBytes_toNat _ _ _⟩

/-! ## The frame of an instruction, in the terms of the statements -/

theorem pcMoved_nextPc {s t : State} {op : Mnemonic} (h : t.pc = nextPc op s) :
    PcMoved s t (lengthOf s.params.width op) := by
  rw [PcMoved, h]
  exact wrap_natCast_toNat _ _

/-- R56: the first half of the depth check, for every instruction. -/
theorem faultsWith_stackUnderflow {i : Instr} {s : State} (h : s.sp < pops i.mnemonic) :
    FaultsWith i s (.stackUnderflow i.mnemonic s.sp) := by
  obtain ⟨body, he⟩ := exec_runInstr i s
  rw [FaultsWith, he, runInstr_under h]
  rfl

/-- An instruction that pushes no more than it pops passes the depth check wherever it finds its operands. -/
theorem runInstr_of_live {s : State} {op : Mnemonic} {body : State → Effect} {l : List Word} (hs : Stacked s)
    (hl : s.live = l) (hp : pops op ≤ l.length) (hq : pushes op ≤ pops op) :
    runInstr op body s = commit op s (body s) := by
  have hsp := hs.sp_eq hl
  have hcap := hs.2
  exact runInstr_ok (by omega) (by omega)

/-! ## Word-valid addresses (R30) -/

theorem covers_iff_exists_word {w : Width} {a : Word} {c : Block} :
    c.covers w a = true ↔ ∃ k < c.words, a.toNat = c.base.toNat + k * w.bytes := by
  constructor
  · exact fun h => ⟨c.wordAt w a, wordAt_spec h⟩
  · rintro ⟨k, hk, ha⟩
    have hlt : k * w.bytes < c.words * w.bytes := Nat.mul_lt_mul_of_pos_right hk (bytes_pos w)
    refine covers_iff.2 ⟨by omega, by omega, ?_⟩
    rw [ha, Nat.add_sub_cancel_left, Nat.mul_mod_left]

theorem any_covers_iff_wordValid {w : Width} {a : Word} {m : Memory} :
    m.any (·.covers w a) = true ↔ WordValid w a m := by
  simp only [List.any_eq_true, covers_iff_exists_word, WordValid]

theorem wordValid_iff_read {w : Width} {a : Word} {m : Memory} :
    WordValid w a m ↔ Memory.read w a m ≠ .unmapped := by
  rw [Ne, read_unmapped_iff, ← any_covers_iff_wordValid, Bool.not_eq_false]

theorem exists_write_of_wordValid {w : Width} {a : Word} {m : Memory} (h : WordValid w a m) (v : Word) :
    ∃ m', Memory.write w a v m = some m' := by
  rw [← Option.isSome_iff_exists, write_isSome]
  exact any_covers_iff_wordValid.2 h

theorem write_of_not_wordValid {w : Width} {a : Word} {m : Memory} (h : ¬ WordValid w a m) (v : Word) :
    Memory.write w a v m = none := by
  rw [← Option.not_isSome_iff_eq_none, write_isSome]
  exact fun hany => h (any_covers_iff_wordValid.1 hany)

/-- R32: a write moves and resizes no block. -/
theorem write_map_shape {w : Width} {a v : Word} {m m' : Memory} (h : Memory.write w a v m = some m') :
    m'.map (fun c => (c.base, c.words)) = m.map (fun c => (c.base, c.words)) := by
  obtain ⟨pre, b, post, rfl, _, _, rfl⟩ := write_cases h
  simp

/-- R32: a write keeps every word-valid address so. -/
theorem wordValid_write {w : Width} {a x v : Word} {m m' : Memory} (hx : WordValid w x m)
    (h : Memory.write w a v m = some m') : WordValid w x m' := by
  rw [wordValid_iff_read] at hx ⊢
  by_cases hxa : x = a
  · rw [hxa, read_write_self h]
    nofun
  · rwa [read_write_of_ne hxa h]

/-! ## STO (R32, R89) -/

theorem exec_sto {s : State} {below : List Word} {a v : Word} {m : Memory} (hs : Stacked s)
    (hl : s.live = below ++ [a, v]) (hm : Memory.write s.params.width a v s.heap = some m) :
    exec .sto s = .next { (pop (pop s).2).2 with heap := m, pc := nextPc .sto s } := by
  obtain ⟨hv, ha, _⟩ := hs.pop_pop_live hl
  rw [exec, execSto, runInstr_of_live hs hl (by simp [pops]) (by decide)]
  simp only [hv, ha, pop_heap, hm, commit]

theorem exec_sto_unmapped {s : State} {below : List Word} {a v : Word} (hs : Stacked s)
    (hl : s.live = below ++ [a, v]) (ha : ¬ WordValid s.params.width a s.heap) :
    FaultsWith .sto s (.invalidMemoryAccess a .unmapped) := by
  obtain ⟨hv, htop, _⟩ := hs.pop_pop_live hl
  rw [FaultsWith, exec, execSto, runInstr_of_live hs hl (by simp [pops]) (by decide)]
  simp only [hv, htop, pop_heap, write_of_not_wordValid ha, commit, takeFault]

/-- Settles O40: the heap is the old one with one write, which reads as R32 says. -/
theorem stoRule : Obligations.StoRule := by
  refine ⟨by decide, fun s below a v hs hl ha => ?_, fun s below a v => exec_sto_unmapped,
    fun s => faultsWith_stackUnderflow (i := .sto)⟩
  obtain ⟨m, hm⟩ := exists_write_of_wordValid ha v
  obtain ⟨_, _, hlive, hsp⟩ := hs.pop_pop_live hl
  exact ⟨_, exec_sto hs hl hm, hlive, hsp, pcMoved_nextPc (op := .sto) rfl, read_write_self hm,
    fun x hx => read_write_of_ne hx hm, write_map_shape hm, rfl⟩

/-! ## RET (R31, R90) -/

theorem exec_ret {s : State} {below : List Word} {a v : Word} (hs : Stacked s) (hl : s.live = below ++ [a])
    (hv : Memory.read s.params.width a s.heap = .word v) :
    exec .ret s = .next { push v (pop s).2 with pc := nextPc .ret s } := by
  obtain ⟨ha, _⟩ := pop_live hs.sp_le_length hl
  rw [exec, execRet, runInstr_of_live hs hl (by simp [pops]) (by decide)]
  simp only [ha, pop_heap, hv, commit]

/-- What RET leaves has the word read in the place of its address. -/
theorem push_pop_live {s : State} {below : List Word} {a : Word} (hs : Stacked s) (hl : s.live = below ++ [a])
    (v : Word) : (push v (pop s).2).live = below ++ [v] ∧ (push v (pop s).2).sp = (below ++ [v]).length := by
  obtain ⟨_, hlive, hsp⟩ := pop_live hs.sp_le_length hl
  have hlen := hs.sp_eq hl
  rw [List.length_append, List.length_singleton] at hlen
  have hroom : (pop s).2.sp < (pop s).2.stk.length := by
    have := hs.sp_le_length
    rw [pop_sp, pop_stk]
    omega
  rw [push_live hroom, hlive, push_sp, hsp, List.length_append, List.length_singleton]
  exact ⟨rfl, rfl⟩

theorem exec_ret_unmapped {s : State} {below : List Word} {a : Word} (hs : Stacked s) (hl : s.live = below ++ [a])
    (h : Memory.read s.params.width a s.heap = .unmapped) : FaultsWith .ret s (.invalidMemoryAccess a .unmapped) := by
  obtain ⟨ha, _⟩ := pop_live hs.sp_le_length hl
  rw [FaultsWith, exec, execRet, runInstr_of_live hs hl (by simp [pops]) (by decide)]
  simp only [ha, pop_heap, h, commit, takeFault]

theorem exec_ret_uninit {s : State} {below : List Word} {a : Word} (hs : Stacked s) (hl : s.live = below ++ [a])
    (h : Memory.read s.params.width a s.heap = .uninit) :
    FaultsWith .ret s (.invalidMemoryAccess a .uninitialized) := by
  obtain ⟨ha, _⟩ := pop_live hs.sp_le_length hl
  rw [FaultsWith, exec, execRet, runInstr_of_live hs hl (by simp [pops]) (by decide)]
  simp only [ha, pop_heap, h, commit, takeFault]

/-- R31: a word-valid cell that holds no word is uninitialized. -/
theorem read_eq_uninit {w : Width} {a : Word} {m : Memory} (ha : WordValid w a m)
    (hno : ∀ v, Memory.read w a m ≠ .word v) : Memory.read w a m = .uninit := by
  cases h : Memory.read w a m with
  | unmapped => exact absurd h (wordValid_iff_read.1 ha)
  | uninit => rfl
  | word v => exact absurd h (hno v)

/-- Settles O41: one case for each answer a read of the heap can give. -/
theorem retRule : Obligations.RetRule := by
  refine ⟨by decide, fun s below a v hs hl hv => ?_, fun s below a hs hl ha hno => ?_, fun s below a hs hl ha => ?_,
    fun s h => ?_⟩
  · obtain ⟨hlive, hsp⟩ := push_pop_live hs hl v
    exact ⟨_, exec_ret hs hl hv, hlive, hsp, pcMoved_nextPc (op := .ret) rfl, rfl⟩
  · exact exec_ret_uninit hs hl (read_eq_uninit ha hno)
  · exact exec_ret_unmapped hs hl (not_not.1 (mt wordValid_iff_read.2 ha))
  · exact h ▸ faultsWith_stackUnderflow (i := .ret) (h ▸ Nat.one_pos)

/-! ## A load after two stores (R39) -/

theorem read_write_write {w : Width} {a b u v : Word} {m m₁ m₂ : Memory} (h₁ : Memory.write w a v m = some m₁)
    (h₂ : Memory.write w b u m₁ = some m₂) : Memory.read w a m₂ = .word (if a = b then u else v) := by
  split
  · next hab => exact hab ▸ read_write_self h₂
  · next hab => rw [read_write_of_ne hab h₂, read_write_self h₁]

/-- A store in a run: one write, and two words less. -/
theorem execAll_sto {is : List Instr} {s : State} {below : List Word} {a v : Word} {m : Memory} (hs : Stacked s)
    (hl : s.live = below ++ [a, v]) (hm : Memory.write s.params.width a v s.heap = some m) :
    ∃ t, execAll (.sto :: is) s = execAll is t ∧ Stacked t ∧ t.live = below ∧ t.heap = m ∧ t.params = s.params := by
  obtain ⟨_, _, hlive, _⟩ := hs.pop_pop_live hl
  exact ⟨_, execAll_cons (exec_sto hs hl hm), hs.pop.pop, hlive, rfl, rfl⟩

/-- A load in a run: pushing an address and reading it puts the word there on top. -/
theorem execAll_push_ret {s : State} {a v : Word} (hs : Stacked s) (hcap : s.sp < s.params.stackCap)
    (hv : Memory.read s.params.width a s.heap = .word v) :
    ∃ t, execAll [.push a, .ret] s = .next t ∧ t.live = s.live ++ [v] := by
  have hpushed : Stacked { push a s with pc := nextPc .push s } := ⟨(List.length_set ..).trans hs.1, hcap⟩
  have hlive : State.live { push a s with pc := nextPc .push s } = s.live ++ [a] := push_live (hs.1 ▸ hcap) a
  rw [execAll_cons (exec_push a hcap), execAll_cons (exec_ret hpushed hlive hv)]
  exact ⟨_, rfl, (push_pop_live hpushed hlive v).1⟩

/-- Settles O42: the heap the load reads is the old one with the two writes, in their order. -/
theorem loadReturnsLatestStore : Obligations.LoadReturnsLatestStore := by
  intro s below a b u v hs hl ha hb
  have hl' : s.live = (below ++ [b, u]) ++ [a, v] := by simp [hl]
  obtain ⟨m₁, h₁⟩ := exists_write_of_wordValid ha v
  obtain ⟨m₂, h₂⟩ := exists_write_of_wordValid (wordValid_write hb h₁) u
  obtain ⟨s₁, he₁, hs₁, hlive₁, rfl, hp₁⟩ := execAll_sto hs hl' h₁
  rw [← hp₁] at h₁ h₂
  obtain ⟨s₂, he₂, hs₂, hlive₂, rfl, hp₂⟩ := execAll_sto hs₁ hlive₁ h₂
  have hroom : s₂.sp < s₂.params.stackCap := by
    have hsp := hs.sp_eq hl
    have hcap := hs.2
    rw [hs₂.sp_eq hlive₂, hp₂, hp₁]
    simp only [List.length_append, List.length_cons] at hsp
    omega
  rw [← hp₂] at h₁ h₂
  rw [he₁, he₂, ← hlive₂]
  exact execAll_push_ret hs₂ hroom (read_write_write h₁ h₂)

/-! ## FREE (R36, R88) -/

theorem release_of_no_base {a : Word} {m : Memory} (h : ∀ c ∈ m, c.base ≠ a) : Memory.release a m = none := by
  rw [← Option.not_isSome_iff_eq_none, release_isSome]
  simpa using h

/-- R35: in a canonical heap the ranges of two blocks never overlap. -/
theorem disjoint_of_wf {w : Width} {pre post : Memory} {c d : Block} (hm : Memory.wf w (pre ++ c :: post))
    (hd : d ∈ pre ++ post) :
    d.base.toNat + d.span w ≤ c.base.toNat ∨ c.base.toNat + c.span w ≤ d.base.toNat := by
  obtain ⟨_, hpw⟩ := hm
  rw [List.pairwise_append, List.pairwise_cons] at hpw
  obtain ⟨_, ⟨hpost, _⟩, hpre⟩ := hpw
  rcases List.mem_append.1 hd with hd | hd
  · exact .inl (hpre d hd c (by simp))
  · exact .inr (hpost d hd)

theorem base_ne_of_wf {w : Width} {pre post : Memory} {c d : Block} (hm : Memory.wf w (pre ++ c :: post))
    (hd : d ∈ pre ++ post) : d.base ≠ c.base := by
  intro heq
  have hdisj := disjoint_of_wf hm hd
  have hspan := span_pos w c
  have hspan' := span_pos w d
  rw [heq] at hdisj
  omega

/-- R36: in a canonical heap a release of a live base takes out exactly the block of that base. -/
theorem release_of_base {w : Width} {m : Memory} {c : Block} (hm : Memory.wf w m) (hc : c ∈ m) :
    ∃ pre post, m = pre ++ c :: post ∧ Memory.release c.base m = some (pre ++ post) := by
  have hsome : (Memory.release c.base m).isSome = true := by
    rw [release_isSome, List.any_eq_true]
    exact ⟨c, hc, by simp⟩
  obtain ⟨m', hrel⟩ := Option.isSome_iff_exists.1 hsome
  obtain ⟨pre, b, post, rfl, _, hb, rfl⟩ := release_cases hrel
  have hcb : c = b := by
    by_contra hne
    have hmem : c ∈ pre ++ post := by simpa [hne] using hc
    exact base_ne_of_wf hm hmem hb.symm
  subst hcb
  exact ⟨pre, post, rfl, hrel⟩

theorem mem_released_iff {w : Width} {pre post : Memory} {c d : Block} (hm : Memory.wf w (pre ++ c :: post)) :
    d ∈ pre ++ post ↔ d ∈ pre ++ c :: post ∧ d.base ≠ c.base := by
  constructor
  · exact fun hd => ⟨(by simp : (pre ++ post).Sublist (pre ++ c :: post)).subset hd, base_ne_of_wf hm hd⟩
  · rintro ⟨hd, hne⟩
    have hdc : d ≠ c := fun h => hne (congrArg Block.base h)
    simpa [hdc] using hd

/-- R36: the addresses of a released block are unmapped, the misaligned ones too. -/
theorem read_released {w : Width} {pre post : Memory} {c : Block} {x : Word} (hm : Memory.wf w (pre ++ c :: post))
    (hlo : c.base.toNat ≤ x.toNat) (hhi : x.toNat < c.base.toNat + c.words * w.bytes) :
    Memory.read w x (pre ++ post) = .unmapped := by
  rw [read_unmapped_iff, List.any_eq_false]
  intro d hd hcov
  obtain ⟨hle, hlt, _⟩ := covers_iff.1 hcov
  have hdisj := disjoint_of_wf hm hd
  have hspan := span_ge w c
  have hspan' := span_ge w d
  omega

theorem not_covers_of_outside {w : Width} {c : Block} {x : Word}
    (h : x.toNat < c.base.toNat ∨ c.base.toNat + c.words * w.bytes ≤ x.toNat) : c.covers w x = false := by
  rw [← Bool.not_eq_true, covers_iff]
  omega

theorem exec_free {s : State} {below : List Word} {a : Word} {m : Memory} (hs : Stacked s)
    (hl : s.live = below ++ [a]) (hm : Memory.release a s.heap = some m) :
    exec .free s = .next { (pop s).2 with heap := m, pc := nextPc .free s } := by
  obtain ⟨ha, _⟩ := pop_live hs.sp_le_length hl
  rw [exec, execFree, runInstr_of_live hs hl (by simp [pops]) (by decide)]
  simp only [ha, pop_heap, hm, commit]

theorem exec_free_invalid {s : State} {below : List Word} {a : Word} (hs : Stacked s)
    (hl : s.live = below ++ [a]) (hno : ∀ c ∈ s.heap, c.base ≠ a) : FaultsWith .free s (.invalidFree a) := by
  obtain ⟨ha, _⟩ := pop_live hs.sp_le_length hl
  rw [FaultsWith, exec, execFree, runInstr_of_live hs hl (by simp [pops]) (by decide)]
  simp only [ha, pop_heap, release_of_no_base hno, commit, takeFault]

/-- Settles O39: in a canonical heap the block of the base is the one released, and no other block overlaps it. -/
theorem freeRule : Obligations.FreeRule := by
  refine ⟨by decide, fun s below a c hs hwf hl hc hca => ?_, fun s below a => exec_free_invalid, fun s h => ?_⟩
  · subst hca
    obtain ⟨pre, post, hheap, hrel⟩ := release_of_base hwf hc
    rw [hheap] at hwf
    obtain ⟨_, hlive, hsp⟩ := pop_live hs.sp_le_length hl
    refine ⟨_, exec_free hs hl hrel, hlive, hsp, pcMoved_nextPc (op := .free) rfl, ?_, ?_, ?_, rfl⟩
    · rw [hheap]
      exact fun d => mem_released_iff hwf
    · exact fun x => read_released hwf
    · rw [hheap]
      exact fun x hx => (read_of_not_covers (not_covers_of_outside hx)).symm
  · exact h ▸ faultsWith_stackUnderflow (i := .free) (h ▸ Nat.one_pos)

/-! ## ALLOC (R35, R87) -/

theorem admits_iff_admissible {w : Width} {n : Nat} {b : Word} {m : Memory} :
    Memory.admits w n b m = true ↔ Admissible w n b m := admits_iff

/-- R35: the words of a new block at an admissible base are uninitialized: no older block covers them. -/
theorem read_insert_new {w : Width} {n k : Nat} {a b : Word} {m : Memory} (hb : Admissible w n b m) (hk : k < n)
    (ha : a.toNat = b.toNat + k * w.bytes) : Memory.read w a (Memory.insert ⟨b, n, []⟩ m) = .uninit := by
  obtain ⟨_, _, _, hdisj⟩ := hb
  have hlt : (k + 1) * w.bytes ≤ max n 1 * w.bytes := Nat.mul_le_mul_right _ (by omega)
  rw [Nat.succ_mul] at hlt
  have hpos := bytes_pos w
  rw [read_insert_of_covers (covers_iff_exists_word.2 ⟨k, hk, ha⟩), cellRead, Option.elim]
  intro c hc
  apply not_covers_of_outside
  have hspan : c.words * w.bytes ≤ max c.words 1 * w.bytes := span_ge w c
  have := hdisj c hc
  omega

/-- R35: every address outside a new block reads as before. -/
theorem read_insert_old {w : Width} {n : Nat} {a b : Word} (m : Memory)
    (ha : ∀ k < n, a.toNat ≠ b.toNat + k * w.bytes) :
    Memory.read w a (Memory.insert ⟨b, n, []⟩ m) = Memory.read w a m := by
  refine read_insert_of_not_covers (Bool.eq_false_iff.2 fun hcov => ?_) m
  obtain ⟨k, hk, hak⟩ := covers_iff_exists_word.1 hcov
  exact ha k hk hak

theorem exec_alloc {s u : State} {imm b : Word} (hcap : s.sp < s.params.stackCap) (h : alloc imm s = some (b, u)) :
    exec (.alloc imm) s = .next { push b u with pc := nextPc .alloc s } := by
  rw [exec, execAlloc, runInstr_ok (op := .alloc) (Nat.zero_le _) hcap]
  simp only [h, commit]

theorem exec_alloc_failed {s : State} {imm : Word} (hcap : s.sp < s.params.stackCap) (h : alloc imm s = none) :
    FaultsWith (.alloc imm) s (.allocationFailed imm) := by
  rw [FaultsWith, exec, execAlloc, runInstr_ok (op := .alloc) (Nat.zero_le _) hcap]
  simp only [h, commit, takeFault]

/-- R87: whatever the allocator answers but `Fail` is admissible, and ALLOC adds that block. -/
theorem exec_alloc_allocated {s u : State} {imm b : Word} (hs : Stacked s) (hcap : s.sp < s.params.stackCap)
    (h : alloc imm s = some (b, u)) :
    ∃ t, exec (.alloc imm) s = .next t ∧ Admissible s.params.width imm.toNat b s.heap ∧ Allocated imm b s t := by
  refine ⟨_, exec_alloc hcap h, ?_⟩
  obtain ⟨_, hadm, rfl⟩ := alloc_spec h
  have hadm' := admits_iff_admissible.1 hadm
  exact ⟨hadm', push_live (hs.1 ▸ hcap) b, rfl, pcMoved_nextPc (op := .alloc) rfl, fun c => mem_insert,
    fun a k hk => read_insert_new hadm' hk, fun a => read_insert_old s.heap, rfl, rfl⟩

/-- Settles O38: by the two answers of the allocator; one that breaks R35 reads as `Fail`. -/
theorem allocIsAdmissibleForEveryOracle : Obligations.AllocIsAdmissibleForEveryOracle := by
  intro s imm hs hcap
  cases h : alloc imm s with
  | none => exact .inl (exec_alloc_failed hcap h)
  | some r =>
    obtain ⟨b, u⟩ := r
    obtain ⟨t, ht⟩ := exec_alloc_allocated hs hcap h
    exact .inr ⟨t, b, ht⟩

end Sys2Proof.Machine
end

section
/-! PROOFS. The statements of 30_encoding.md: decoding and encoding are inverse, the length of an instruction, and
the bytes that are no instruction. -/

namespace Sys2Proof.Machine

open Sys2Proof.Claims

/-! ## Instructions as a mnemonic and an immediate (R43, R46) -/

theorem eq_ofMnemonic (i : Instr) : i = .ofMnemonic i.mnemonic (i.immediate.getD 0) := by
  cases i <;> rfl

/-- A mnemonic without an immediate makes the same instruction of every word. -/
theorem ofMnemonic_of_F0 {m : Mnemonic} (hf : formatOf m = .F0) (imm : Word) :
    Instr.ofMnemonic m imm = .ofMnemonic m 0 := by
  simpa [ofMnemonic_mnemonic, ofMnemonic_immediate, hf] using eq_ofMnemonic (.ofMnemonic m imm)

theorem wf_eq_all_immediate (w : Width) (i : Instr) : i.wf w = i.immediate.all fun v => decide (w.fits v) := by
  cases i <;> rfl

theorem fits_of_ofMnemonic_wf {w : Width} {m : Mnemonic} {imm : Word} (hf : formatOf m = .FI)
    (h : (Instr.ofMnemonic m imm).wf w = true) : w.fits imm := by
  rw [wf_eq_all_immediate, ofMnemonic_immediate, if_pos hf] at h
  exact of_decide_eq_true h

theorem formatOf_eq_FI_iff (m : Mnemonic) :
    formatOf m = .FI ↔ m ∈ [Mnemonic.push, .alloc, .jmp, .jmpIfTrue, .jmpIfFalse] := by
  cases m <;> decide

/-! ## The immediate as a word and as bytes (R28, R44) -/

theorem ofNat_wordOfBytes_bytesOfWord {w : Width} {v : Word} (hv : w.fits v) :
    BitVec.ofNat 64 (wordOfBytes (bytesOfWord w.bytes v.toNat)) = v := by
  rw [wordOfBytes_bytesOfWord, ← bits_eq, Nat.mod_eq_of_lt hv, BitVec.ofNat_toNat, BitVec.setWidth_eq]

theorem bytesOfWord_ofNat_wordOfBytes {w : Width} {bs : List Byte} (h : bs.length = w.bytes) :
    bytesOfWord w.bytes (BitVec.ofNat 64 (wordOfBytes bs)).toNat = bs := by
  have hlt : wordOfBytes bs < 2 ^ w.bits := by
    rw [bits_eq, ← h]
    exact wordOfBytes_lt bs
  rw [BitVec.toNat_ofNat, Nat.mod_eq_of_lt (Nat.lt_of_lt_of_le hlt (two_pow_bits_le w)), ← h,
    bytesOfWord_wordOfBytes]

/-! ## The encoder and the decoder, format by format (R43, R54) -/

theorem encode_of_F0 (p : Params) {m : Mnemonic} (hf : formatOf m = .F0) (imm : Word) :
    encode p (.ofMnemonic m imm) = [opcodeOf p.opcodeMap m] := by
  simp [encode, ofMnemonic_mnemonic, ofMnemonic_immediate, hf]

theorem encode_of_FI (p : Params) {m : Mnemonic} (hf : formatOf m = .FI) (imm : Word) :
    encode p (.ofMnemonic m imm) = opcodeOf p.opcodeMap m :: bytesOfWord p.width.bytes imm.toNat := by
  simp [encode, ofMnemonic_mnemonic, ofMnemonic_immediate, hf]

section
variable {p : Params} {b : Byte} {m : Mnemonic}

theorem decode_of_F0 (hm : mnemonicOf p.opcodeMap b = some m) (hf : formatOf m = .F0) (rest : List Byte) :
    decode p (b :: rest) = .ok (.ofMnemonic m 0, rest) := by
  simp [decode, hm, hf]

theorem decode_of_FI (hm : mnemonicOf p.opcodeMap b = some m) (hf : formatOf m = .FI) {bs : List Byte}
    (hbs : bs.length = p.width.bytes) (rest : List Byte) :
    decode p (b :: (bs ++ rest)) = .ok (.ofMnemonic m (BitVec.ofNat 64 (wordOfBytes bs)), rest) := by
  simp [decode, hm, hf, ← hbs]

theorem decode_of_unknown (hb : ∀ m, opcodeOf p.opcodeMap m ≠ b) (rest : List Byte) :
    decode p (b :: rest) = .error (.unknownOpcode b) := by
  simp [decode, mnemonicOf_eq_none_iff.2 hb]

end

/-! ## Round trips -/

/-- Settles O1, by the two formats: the opcode byte selects the mnemonic again, and the immediate's bytes are read
back as its word. -/
theorem decodeOfEncode : Obligations.DecodeOfEncode := by
  intro p i rest hp hwf
  have hm := mnemonicOf_opcodeOf hp.2 i.mnemonic
  rw [eq_ofMnemonic i] at hwf ⊢
  cases hf : formatOf i.mnemonic with
  | F0 =>
    rw [encode_of_F0 p hf, List.singleton_append, decode_of_F0 hm hf, ofMnemonic_of_F0 hf (i.immediate.getD 0)]
  | FI =>
    rw [encode_of_FI p hf, List.cons_append, decode_of_FI hm hf (bytesOfWord_length _ _),
      ofNat_wordOfBytes_bytesOfWord (fits_of_ofMnemonic_wf hf hwf)]

theorem encode_of_decode {p : Params} {bytes : List Byte} {i : Instr} {rest : List Byte}
    (h : decode p bytes = .ok (i, rest)) : encode p i ++ rest = bytes := by
  obtain ⟨b, tail, m, rfl, hm, ⟨hf, rfl, rfl⟩ | ⟨hf, hlen, rfl, rfl⟩⟩ := decode_cases h
  · rw [encode_of_F0 p hf, opcodeOf_of_mnemonicOf hm, List.singleton_append]
  · rw [encode_of_FI p hf, opcodeOf_of_mnemonicOf hm,
      bytesOfWord_ofNat_wordOfBytes (List.length_take_of_le hlen), List.cons_append, List.take_append_drop]

/-- Settles O2: the decoder keeps every byte it reads, the opcode as the mnemonic and the rest as the immediate. -/
theorem encodeOfDecode : Obligations.EncodeOfDecode :=
  fun _ _ _ _ h => ⟨decode_wf h, encode_of_decode h⟩

/-! ## The length of an instruction (R49) -/

/-- Settles O4: the two formats take one byte, and one byte and a word. -/
theorem lengthByOpcode : Obligations.LengthByOpcode := by
  intro p bytes i rest h
  simp only [← formatOf_eq_FI_iff]
  obtain ⟨b, tail, m, rfl, _, ⟨hf, rfl, rfl⟩ | ⟨hf, hlen, rfl, rfl⟩⟩ := decode_cases h
  · simp [ofMnemonic_mnemonic, hf]
  · rw [ofMnemonic_mnemonic, if_pos hf, List.length_cons, List.length_drop]
    omega

/-! ## Illegal bytes (R47) -/

theorem drop_pc_of_atByte {s : State} {b : Byte} (h : AtByte s b) :
    s.program.body.drop s.pc.toNat = b :: s.program.body.drop (s.pc.toNat + 1) := by
  obtain ⟨hlt, hb⟩ := List.getElem?_eq_some_iff.1 h.2
  rw [List.drop_eq_getElem_cons hlt, hb]

theorem step_of_fetch_error {s : State} {c : FaultCause} (hr : s.status = .running) (h : fetch s = .error c) :
    step s = .next (takeFault c s) := by
  simp only [step, hr, h]

theorem step_unknownOpcode {s : State} {b : Byte} (hs : AtByte s b) (hb : ∀ m, opcodeOf s.params.opcodeMap m ≠ b) :
    step s = .next (takeFault (.unknownOpcode b) s) :=
  step_of_fetch_error hs.1 (fetch_error (drop_pc_of_atByte hs ▸ decode_of_unknown hb _))

/-- R45: the default map numbers the mnemonics in the table's order. -/
theorem opcodeOf_default_toNat (m : Mnemonic) : (opcodeOf Params.default.opcodeMap m).toNat = m.index := by
  cases m <;> rfl

theorem exists_mnemonic_index {k : Nat} (hk : k < 39) : ∃ m : Mnemonic, m.index = k := by
  have hall : Mnemonic.all.map Mnemonic.index = List.range 39 := by decide
  obtain ⟨m, _, hm⟩ := List.mem_map.1 (hall ▸ List.mem_range.2 hk)
  exact ⟨m, hm⟩

theorem unmapped_default_iff (b : Byte) : (∀ m, opcodeOf Params.default.opcodeMap m ≠ b) ↔ 0x27 ≤ b.toNat := by
  constructor
  · intro h
    by_contra hlt
    obtain ⟨m, hm⟩ := exists_mnemonic_index (Nat.lt_of_not_le hlt)
    exact h m (BitVec.eq_of_toNat_eq ((opcodeOf_default_toNat m).trans hm))
  · rintro h m rfl
    rw [opcodeOf_default_toNat] at h
    exact absurd m.index_lt (Nat.not_lt.2 h)

/-- Settles O6: a byte of no mnemonic fails to decode, and no admissible map has 0x99. -/
theorem illegalBytesFault : Obligations.IllegalBytesFault :=
  ⟨fun _ _ hs hb => step_unknownOpcode hs hb,
    fun _ hs hp => step_unknownOpcode hs (opcodeOf_ne_99 hp.2),
    unmapped_default_iff⟩

/-! ## Sample words (R43, R45) -/

/-- Settles O3: the decoder runs on each of the written-out words. -/
theorem sampleWordsDecode : Obligations.SampleWordsDecode :=
  ⟨rfl, rfl, rfl, rfl, rfl, rfl, rfl, rfl, rfl, rfl, rfl⟩

end Sys2Proof.Machine
end

section
/-! PROOFS. The statements of 40_engine.md: when a block has a step, what it executes, and the faults of the fetch
and of the depth check. -/

namespace Sys2Proof.Machine

open Sys2Proof.Claims

/-! ## The depth check by the table of R50 (R56) -/

theorem signature_mem (m : Mnemonic) : (m, pops m, pushes m) ∈ signatures := by
  cases m <;> decide

/-- R56: the second half of the depth check, for every instruction. -/
theorem faultsWith_stackOverflow {i : Instr} {s : State} (hp : pops i.mnemonic ≤ s.sp)
    (hcap : s.params.stackCap < s.sp - pops i.mnemonic + pushes i.mnemonic) :
    FaultsWith i s (.stackOverflow i.mnemonic s.sp) := by
  obtain ⟨body, he⟩ := exec_runInstr i s
  rw [FaultsWith, he, runInstr_over hp hcap]
  rfl

/-- Settles O12: the table's one row for the mnemonic is what the frame of every instruction checks first. -/
theorem depthCheckBySignature : Obligations.DepthCheckBySignature := fun i _ =>
  ⟨pops i.mnemonic, pushes i.mnemonic, signature_mem i.mnemonic, fun _ _ => signatures_eq_pops_pushes _,
    faultsWith_stackUnderflow, faultsWith_stackOverflow⟩

/-! ## The fetch (R53 to R55) -/

theorem step_of_fetch_ok {s : State} {i : Instr} (hr : s.status = .running) (h : fetch s = .ok i) :
    step s = exec i s := by
  simp only [step, hr, h]

/-- Settles O7: the fetch is the decoding of the bytes at the pc. -/
theorem stepRunsDecodedInstruction : Obligations.StepRunsDecodedInstruction :=
  fun _ _ rest hr hdec => step_of_fetch_ok hr (fetch_ok_iff.2 ⟨rest, hdec⟩)

/-- R53, R26: at or past the end of the body there is no byte to fetch. -/
theorem fetch_past_body {s : State} (h : s.program.body.length ≤ s.pc.toNat) :
    fetch s = .error (.programOutOfBounds s.pc 1) := by
  refine fetch_error (e := .endOfBody) ?_
  rw [List.drop_eq_nil_of_le h, decode]

/-- Settles O10: the decoder finds no opcode there, and that fault of the fetch is the step. -/
theorem fetchPastBodyFaults : Obligations.FetchPastBodyFaults :=
  fun _ hr h => step_of_fetch_error hr (fetch_past_body h)

section
variable {s : State} {m : Mnemonic} (hp : s.params.Ok) (hs : AtByte s (opcodeOf s.params.opcodeMap m))
  (hf : formatOf m = .FI)
include hp hs hf

/-- R55: an immediate that runs past the body. -/
theorem fetch_immediate_past_body (h : s.program.body.length < s.pc.toNat + 1 + s.params.width.bytes) :
    fetch s = .error (.programOutOfBounds s.pc (1 + s.params.width.bytes)) := by
  refine fetch_error (e := .immediatePastEnd) ?_
  have hlt := (List.getElem?_eq_some_iff.1 hs.2).1
  have hshort : (s.program.body.drop (s.pc.toNat + 1)).length < s.params.width.bytes := by
    rw [List.length_drop]
    omega
  simp only [drop_pc_of_atByte hs, decode, mnemonicOf_opcodeOf hp.2, hf, if_pos hshort]

/-- R55: an immediate that lies within the body. -/
theorem fetch_immediate_within_body (h : s.pc.toNat + 1 + s.params.width.bytes ≤ s.program.body.length) :
    ∃ imm, fetch s = .ok (.ofMnemonic m imm) := by
  have hlong : s.params.width.bytes ≤ (s.program.body.drop (s.pc.toNat + 1)).length := by
    rw [List.length_drop]
    omega
  have hdec := decode_of_FI (mnemonicOf_opcodeOf hp.2 m) hf (List.length_take_of_le hlong)
    ((s.program.body.drop (s.pc.toNat + 1)).drop s.params.width.bytes)
  rw [List.take_append_drop, ← drop_pc_of_atByte hs] at hdec
  exact ⟨_, fetch_ok_iff.2 ⟨_, hdec⟩⟩

end

/-- Settles O11: decoding alone finds the immediate missing; where it is there, the fetched instruction has it. -/
theorem immediatePastBodyFaults : Obligations.ImmediatePastBodyFaults := by
  intro s m hp hs hm
  have hf := (formatOf_eq_FI_iff m).2 hm
  refine ⟨fun h => step_of_fetch_error hs.1 (fetch_immediate_past_body hp hs hf h), fun h => ?_⟩
  obtain ⟨imm, hfetch⟩ := fetch_immediate_within_body hp hs hf h
  have himm : (Instr.ofMnemonic m imm).immediate = some imm := by rw [ofMnemonic_immediate, if_pos hf]
  exact ⟨_, imm, ofMnemonic_mnemonic m imm, himm, fetch_immediate hfetch himm, step_of_fetch_ok hs.1 hfetch⟩

/-! ## When a block has a step (R52, R57, R97) -/

/-- Settles O8: only a running block steps. -/
theorem stoppedBlockHasNoStep : Obligations.StoppedBlockHasNoStep :=
  fun _ hs _ h => hs (running_of_step h)

theorem runInstr_waiting_iff {op : Mnemonic} {body : State → Effect} {s : State} :
    runInstr op body s = .fault .waiting ↔ (depthFault op s).isNone ∧ body s = .hold := by
  unfold runInstr
  cases depthFault op s with
  | some c => simp
  | none => cases body s <;> simp [commit]

theorem exec_input_waiting_iff {s : State} : exec .input s = .fault .waiting ↔
    (depthFault .input s).isNone ∧ scanByte s.inEnded (unread s) = .wait :=
  runInstr_waiting_iff.trans (and_congr_right' takeInput_hold)

theorem exec_inputInt_waiting_iff {s : State} : exec .inputInt s = .fault .waiting ↔
    (depthFault .inputInt s).isNone ∧ scanInt s.params.width s.inEnded (unread s) = .wait :=
  runInstr_waiting_iff.trans (and_congr_right' takeInput_hold)

/-- In a running block that fetches `i`, `held` says whether `i` waits: only the two input instructions can. -/
theorem exec_waiting_iff_held {s : State} {i : Instr} (hr : s.status = .running) (hf : fetch s = .ok i) :
    exec i s = .fault .waiting ↔ held s = true := by
  have hnext := fun h₁ h₂ => exec_next (i := i) h₁ h₂ s
  cases i
  case input => simp [held, hr, hf, exec_input_waiting_iff]
  case inputInt => simp [held, hr, hf, exec_inputInt_waiting_iff]
  all_goals
    obtain ⟨t, ht⟩ := hnext nofun nofun
    simp [held, hr, hf, ht]

/-- R97, R98: the blocks that wait are the held ones. -/
theorem step_waiting_iff_held (s : State) : step s = .fault .waiting ↔ held s = true := by
  rcases step_cases s with ⟨hs, h⟩ | ⟨r, hs, h⟩ | ⟨hr, c, hf, h⟩ | ⟨hr, i, hf, h⟩ <;> rw [h]
  · simp [held, hs]
  · simp [held, hs]
  · simp [held, hr, hf]
  · exact exec_waiting_iff_held hr hf

theorem step_next_or_waiting {s : State} (hr : s.status = .running) :
    (∃ t, step s = .next t) ∨ step s = .fault .waiting := by
  cases hf : fetch s with
  | error c => exact .inl ⟨_, step_of_fetch_error hr hf⟩
  | ok i => exact step_of_fetch_ok hr hf ▸ exec_next_or_waiting i s

/-- Settles O9: a running block steps or waits, and it waits exactly where it is held. -/
theorem runningBlockStepsUnlessHeld : Obligations.RunningBlockStepsUnlessHeld := by
  intro s hr
  constructor
  · intro hheld
    refine (step_next_or_waiting hr).resolve_right fun hw => ?_
    exact Bool.false_ne_true (hheld ▸ (step_waiting_iff_held s).1 hw)
  · intro hheld t ht
    cases ht.symm.trans ((step_waiting_iff_held s).2 hheld)

end Sys2Proof.Machine
end

section
/-! PROOFS. The statements of 41_stack.md: PUSH, POP, DUP, SWAP and ROT. -/

namespace Sys2Proof.Machine

open Sys2Proof.Claims

/-! ## States with another stack (R15, R16)

The state `s` with the live stack `l`: pops and pushes take one such state to another, and an instruction that only
moves words on the stack leaves one. -/

/-- `t` is `s` with the live stack `l`, but for the pc and what the dead slots hold. -/
structure WithStack (s t : State) (l : List Word) : Prop where
  live : t.live = l
  sp_eq : t.sp = l.length
  stk_length : t.stk.length = s.stk.length
  frame : t = { s with stk := t.stk, sp := t.sp, pc := t.pc }

theorem WithStack.of_stacked {s : State} {l : List Word} (hs : Stacked s) (hl : s.live = l) : WithStack s s l :=
  ⟨hl, hs.sp_eq hl, rfl, rfl⟩

namespace WithStack

variable {s t : State} {l : List Word} {v : Word}

theorem params_eq (h : WithStack s t l) : t.params = s.params := by rw [h.frame]

theorem length_le (h : WithStack s t l) : l.length ≤ s.stk.length := by
  rw [← h.live, ← h.stk_length]
  exact List.length_take_le' _ _

theorem sp_le_length (h : WithStack s t l) : t.sp ≤ t.stk.length := by
  rw [h.sp_eq, h.stk_length]
  exact h.length_le

theorem stacked (h : WithStack s t l) (hs : Stacked s) : Stacked t := by
  have hlen : t.stk.length = t.params.stackCap := by rw [h.stk_length, h.params_eq, hs.1]
  exact ⟨hlen, hlen ▸ h.sp_le_length⟩

theorem trans {u : State} {l' : List Word} (h : WithStack s t l) (h' : WithStack t u l') : WithStack s u l' where
  live := h'.live
  sp_eq := h'.sp_eq
  stk_length := h'.stk_length.trans h.stk_length
  frame := h'.frame.trans (congrArg (fun x : State => { x with stk := u.stk, sp := u.sp, pc := u.pc }) h.frame)

theorem setPc (h : WithStack s t l) (a : Word) : WithStack s { t with pc := a } l where
  live := h.live
  sp_eq := h.sp_eq
  stk_length := h.stk_length
  frame := congrArg (fun x : State => { x with pc := a }) h.frame

theorem pop_fst (h : WithStack s t (l ++ [v])) : (pop t).1 = v := (pop_live h.sp_le_length h.live).1

theorem pop (h : WithStack s t (l ++ [v])) : WithStack s (pop t).2 l := by
  obtain ⟨_, hlive, hsp⟩ := pop_live h.sp_le_length h.live
  exact ⟨hlive, hsp, h.stk_length, congrArg (fun x => (Machine.pop x).2) h.frame⟩

theorem push {v' : Word} (h : WithStack s t l) (hv : v' = v) (hroom : l.length < s.stk.length) :
    WithStack s (push v' t) (l ++ [v]) where
  live := by rw [push_live (by rw [h.sp_eq, h.stk_length]; exact hroom), h.live, hv]
  sp_eq := by simp [h.sp_eq]
  stk_length := by simp [h.stk_length]
  frame := congrArg (Machine.push v') h.frame

/-- Two states with the same live stack differ in the pc and the dead slots alone. -/
theorem frame_of_same_stack {u : State} (h : WithStack s t l) (h' : WithStack s u l) :
    t = { u with stk := t.stk, pc := t.pc } := by
  have hsp : t.sp = u.sp := h.sp_eq.trans h'.sp_eq.symm
  calc t = { s with stk := t.stk, sp := t.sp, pc := t.pc } := h.frame
    _ = { s with stk := t.stk, sp := u.sp, pc := t.pc } := by rw [hsp]
    _ = { u with stk := t.stk, pc := t.pc } :=
      congrArg (fun x : State => { x with stk := t.stk, pc := t.pc }) h'.frame.symm

end WithStack

/-- `exec i s` completes, the pc goes on to the next instruction, and `l` is the live stack. -/
def Leaves (i : Instr) (s : State) (l : List Word) : Prop :=
  ∃ t, exec i s = .next t ∧ t.pc = nextPc i.mnemonic s ∧ WithStack s t l

theorem Leaves.stackResult {i : Instr} {s : State} {l : List Word} (h : Leaves i s l) :
    StackResult i s (lengthOf s.params.width i.mnemonic) l := by
  obtain ⟨t, he, hpc, ht⟩ := h
  exact ⟨t, he, ht.live, ht.sp_eq, pcMoved_nextPc hpc, ht.frame⟩

theorem Leaves.execAll_cons {i : Instr} {is : List Instr} {s : State} {l : List Word} (h : Leaves i s l) :
    ∃ t, execAll (i :: is) s = execAll is t ∧ WithStack s t l := by
  obtain ⟨t, he, _, ht⟩ := h
  exact ⟨t, Machine.execAll_cons he, ht⟩

/-- R57: what an instruction that completes leaves, by what its pseudocode does. -/
theorem leaves_of_commit {i : Instr} {s u : State} {l : List Word} (hu : WithStack s u l)
    (he : exec i s = commit i.mnemonic s (.done u)) : Leaves i s l :=
  ⟨_, he, rfl, hu.setPc _⟩

theorem exists_top {s : State} (hs : Stacked s) {n : Nat} (hn : n ≤ s.sp) :
    ∃ below top, s.live = below ++ top ∧ top.length = n := by
  refine ⟨s.live.take (s.sp - n), s.live.drop (s.sp - n), (List.take_append_drop _ _).symm, ?_⟩
  rw [List.length_drop, live_length hs.sp_le_length]
  omega

/-! ## PUSH (R59) -/

/-- R43: byte `j` of a word is its value's digit `j` in base `2^8`. -/
theorem bytesOfWord_eq_map (n v : Nat) :
    bytesOfWord n v = (List.range n).map fun j => BitVec.ofNat 8 (v / 2 ^ (8 * j)) := by
  induction n generalizing v with
  | zero => rfl
  | succ n ih =>
    have hdigit (j : Nat) : v / 256 / 2 ^ (8 * j) = v / 2 ^ (8 * (j + 1)) := by
      rw [Nat.div_div_eq_div_mul, Nat.mul_succ, Nat.pow_add, Nat.mul_comm]
    simp [bytesOfWord, ih, List.range_succ_eq_map, Function.comp_def, hdigit]

/-- R43, R55: the immediate of every `FI` opcode is checked against the body's end. -/
theorem immediateChecked_of_FI {m : Mnemonic} (hf : formatOf m = .FI) : ImmediateChecked m :=
  fun _ hp hs h => step_of_fetch_error hs.1 (fetch_immediate_past_body hp hs hf h)

theorem leaves_push {s : State} (v : Word) (hs : Stacked s) (hcap : s.sp < s.params.stackCap) :
    Leaves (.push v) s (s.live ++ [v]) :=
  have hroom : s.live.length < s.stk.length := by rwa [live_length hs.sp_le_length, hs.1]
  ⟨_, exec_push v hcap, rfl, ((WithStack.of_stacked hs rfl).push rfl hroom).setPc _⟩

/-- Settles O26: by the frame of the instruction, its encoding and the check of its fetch. -/
theorem pushRule : Obligations.PushRule := by
  refine ⟨fun imm => ?_, fun s imm hs hcap => (leaves_push imm hs hcap).stackResult, fun s imm hfull => ?_,
    immediateChecked_of_FI rfl⟩
  · exact congrArg (0x00 :: ·) (bytesOfWord_eq_map 8 imm.toNat)
  · exact faultsWith_stackOverflow (i := .push imm) (Nat.zero_le _) (hfull ▸ Nat.lt_succ_self _)

/-! ## POP, DUP and SWAP (R60 to R62) -/

theorem leaves_pop {s : State} {below : List Word} {v : Word} (hs : Stacked s) (hl : s.live = below ++ [v]) :
    Leaves .pop s below := by
  refine leaves_of_commit (WithStack.of_stacked hs hl).pop ?_
  rw [exec, execPop, runInstr_of_live hs hl (by simp [pops]) (by decide)]
  rfl

theorem leaves_dup {s : State} {below : List Word} {v : Word} (hs : Stacked s) (hl : s.live = below ++ [v])
    (hcap : s.sp < s.params.stackCap) : Leaves .dup s (below ++ [v, v]) := by
  have h := WithStack.of_stacked hs hl
  have hsp : s.sp = below.length + 1 := by simpa using h.sp_eq
  have hroom : below.length + 1 < s.stk.length := by rwa [hs.1, ← hsp]
  have hu := (h.pop.push h.pop_fst (by omega)).push h.pop_fst (by simpa)
  rw [List.append_assoc] at hu
  refine leaves_of_commit hu ?_
  rw [exec, execDup, runInstr_ok (op := .dup) (by simp [pops, hsp]) (by simp [pops, pushes, hsp]; omega)]
  rfl

theorem leaves_swap {s : State} {below : List Word} {b a : Word} (hs : Stacked s) (hl : s.live = below ++ [b, a]) :
    Leaves .swap s (below ++ [a, b]) := by
  have h : WithStack s s (below ++ [b] ++ [a]) := .of_stacked hs (by simp [hl])
  have hroom : below.length + 2 ≤ s.stk.length := by simpa using h.length_le
  have hu := (h.pop.pop.push h.pop_fst (by omega)).push h.pop.pop_fst (by simp; omega)
  rw [List.append_assoc] at hu
  refine leaves_of_commit hu ?_
  rw [exec, execSwap, runInstr_of_live hs hl (by simp [pops]) (by decide)]
  rfl

/-- R61, corner cases: the duplicate is popped again, and then the word it was made of. -/
theorem execAll_dup_pop_pop {s : State} {below : List Word} {v : Word} (hs : Stacked s) (hl : s.live = below ++ [v])
    (hcap : s.sp < s.params.stackCap) : ∃ t, execAll [.dup, .pop, .pop] s = .next t ∧ WithStack s t below := by
  obtain ⟨t, he, ht⟩ := (leaves_dup hs hl hcap).execAll_cons
  have hst := ht.stacked hs
  obtain ⟨u, he', hu⟩ := (leaves_pop (below := below ++ [v]) (v := v) hst (by simp [ht.live])).execAll_cons
  obtain ⟨w, he'', hw⟩ := (leaves_pop (hu.stacked hst) hu.live).execAll_cons
  exact ⟨w, he.trans (he'.trans he''), (ht.trans hu).trans hw⟩

/-- Settles O27: what each instruction leaves is read off the stack picture, and every fault is the depth check's. -/
theorem popDupSwapRules : Obligations.PopDupSwapRules := by
  refine ⟨⟨by decide, by decide, by decide⟩, fun s below v hs hl => (leaves_pop hs hl).stackResult,
    fun s t => exec_pop_stk, fun s h => ?_, fun s below v hs hl hcap => (leaves_dup hs hl hcap).stackResult,
    fun s h => ?_, fun s hpos hfull => ?_, fun s below b a hs hl => (leaves_swap hs hl).stackResult,
    fun s => faultsWith_stackUnderflow (i := .swap), fun s hs hpos hcap => ?_⟩
  · exact h ▸ faultsWith_stackUnderflow (i := .pop) (h ▸ Nat.one_pos)
  · exact h ▸ faultsWith_stackUnderflow (i := .dup) (h ▸ Nat.one_pos)
  · exact faultsWith_stackOverflow (i := .dup) hpos (show s.params.stackCap < s.sp - 1 + 2 by omega)
  · obtain ⟨below, top, hl, htop⟩ := exists_top hs hpos
    obtain ⟨v, rfl⟩ := List.length_eq_one_iff.1 htop
    obtain ⟨t, he, ht⟩ := execAll_dup_pop_pop hs hl hcap
    obtain ⟨u, he', _, hu⟩ := leaves_pop hs hl
    exact ⟨t, u, he, he', ht.live.trans hu.live.symm, ht.frame_of_same_stack hu⟩

/-! ## ROT (R63) -/

/-- R63: what the two modes make of the three top words. -/
def rotated : RotMode → Word → Word → Word → List Word
  | .bac, a, b, c => [b, a, c]
  | .bca, a, b, c => [b, c, a]

theorem leaves_rot {s : State} {mode : RotMode} {below : List Word} {a b c : Word} (hs : Stacked s)
    (hm : s.params.rotMode = mode) (hl : s.live = below ++ [a, b, c]) :
    Leaves .rot s (below ++ rotated mode a b c) := by
  have h : WithStack s s (below ++ [a] ++ [b] ++ [c]) := .of_stacked hs (by simp [hl])
  have hroom : below.length + 3 ≤ s.stk.length := by simpa using h.length_le
  have ha := h.pop.pop.pop_fst
  have hc := h.pop_fst
  have hb := h.pop.pop.pop.push h.pop.pop_fst (by omega)
  cases mode with
  | bac =>
    have hu := (hb.push ha (by simp; omega)).push hc (by simp; omega)
    rw [List.append_assoc, List.append_assoc] at hu
    refine leaves_of_commit hu ?_
    rw [exec, execRot, runInstr_of_live hs hl (by simp [pops]) (by decide)]
    simp only [hm, Instr.mnemonic]
  | bca =>
    have hu := (hb.push hc (by simp; omega)).push ha (by simp; omega)
    rw [List.append_assoc, List.append_assoc] at hu
    refine leaves_of_commit hu ?_
    rw [exec, execRot, runInstr_of_live hs hl (by simp [pops]) (by decide)]
    simp only [hm, Instr.mnemonic]

/-- One `ROT` in a run, ready for the next. -/
theorem execAll_rot {is : List Instr} {s : State} {mode : RotMode} {below : List Word} {a b c : Word}
    (hs : Stacked s) (hm : s.params.rotMode = mode) (hl : s.live = below ++ [a, b, c]) :
    ∃ t, execAll (.rot :: is) s = execAll is t ∧ Stacked t ∧ t.params.rotMode = mode ∧
      t.live = below ++ rotated mode a b c := by
  obtain ⟨t, he, ht⟩ := (leaves_rot hs hm hl).execAll_cons
  exact ⟨t, he, ht.stacked hs, ht.params_eq ▸ hm, ht.live⟩

theorem exists_top_three {s : State} (hs : Stacked s) (h : 3 ≤ s.sp) :
    ∃ below a b c, s.live = below ++ [a, b, c] := by
  obtain ⟨below, top, hl, htop⟩ := exists_top hs h
  obtain ⟨a, b, c, rfl⟩ := List.length_eq_three.1 htop
  exact ⟨below, a, b, c, hl⟩

theorem execAll_rot_rot {s : State} (hs : Stacked s) (h : 3 ≤ s.sp) (hm : s.params.rotMode = .bac) :
    ∃ t, execAll [.rot, .rot] s = .next t ∧ t.live = s.live := by
  obtain ⟨below, a, b, c, hl⟩ := exists_top_three hs h
  obtain ⟨t, he, ht, htm, htl⟩ := execAll_rot hs hm hl
  obtain ⟨u, he', _, _, hul⟩ := execAll_rot ht htm htl
  exact ⟨u, he.trans he', hul.trans hl.symm⟩

theorem execAll_rot_rot_rot {s : State} (hs : Stacked s) (h : 3 ≤ s.sp) (hm : s.params.rotMode = .bca) :
    ∃ t, execAll [.rot, .rot, .rot] s = .next t ∧ t.live = s.live := by
  obtain ⟨below, a, b, c, hl⟩ := exists_top_three hs h
  obtain ⟨t, he, ht, htm, htl⟩ := execAll_rot hs hm hl
  obtain ⟨u, he', hu, hum, hul⟩ := execAll_rot ht htm htl
  obtain ⟨w, he'', _, _, hwl⟩ := execAll_rot hu hum hul
  exact ⟨w, he.trans (he'.trans he''), hwl.trans hl.symm⟩

/-- Settles O28: the rotation of the three top words is its own inverse under `BAC`, and has order three under
`BCA`. -/
theorem rotRule : Obligations.RotRule :=
  ⟨by decide, fun _ _ _ _ _ hs hl hm => (leaves_rot hs hm hl).stackResult,
    fun _ _ _ _ _ hs hl hm => (leaves_rot hs hm hl).stackResult, fun _ => faultsWith_stackUnderflow (i := .rot),
    fun _ => execAll_rot_rot, fun _ => execAll_rot_rot_rot⟩

end Sys2Proof.Machine
end

section
/-! PROOFS. The statements of 42_arithmetic.md: ADD, SUB, MULT, DIV, MOD and POW. -/

namespace Sys2Proof.Machine

open Sys2Proof.Claims

/-! ## Binary instructions (R64) -/

/-- `i` is an instruction of one byte that runs in the frame of R64, with `g` as its operation. -/
structure IsBinary (i : Instr) (g : Params → Word → Word → Except FaultCause Word) : Prop where
  pops_eq : pops i.mnemonic = 2
  pushes_eq : pushes i.mnemonic = 1
  format_eq : formatOf i.mnemonic = .F0
  exec_eq : ∀ s, exec i s = binary i.mnemonic (g s.params) s

namespace IsBinary

variable {i : Instr} {byte : Byte} {g : Params → Word → Word → Except FaultCause Word}
  {f : Width → Word → Word → Word} {s : State} {below : List Word} {lhs rhs : Word}

theorem stackResult (hi : IsBinary i g) (hs : Stacked s) (hl : s.live = below ++ [lhs, rhs]) {v : Word}
    (hg : g s.params lhs rhs = .ok v) : StackResult i s 1 (below ++ [v]) := by
  have h : WithStack s s (below ++ [lhs] ++ [rhs]) := .of_stacked hs (by simp [hl])
  have hsp : s.sp = below.length + 2 := by simpa using h.sp_eq
  have hroom : below.length < s.stk.length := by have := hs.sp_le_length; omega
  have hg' : g s.params (pop (pop s).2).1 (pop s).1 = .ok v := by rwa [h.pop_fst, h.pop.pop_fst]
  have hexec := (hi.exec_eq s).trans
    (binary_ok hi.pops_eq hi.pushes_eq (hsp ▸ Nat.le_add_left 2 _) (Nat.le_succ_of_le hs.2) hg')
  have hleaves : Leaves i s (below ++ [v]) := leaves_of_commit (h.pop.pop.push rfl hroom) hexec
  simpa only [lengthOf, hi.format_eq] using hleaves.stackResult

theorem faultsWith (hi : IsBinary i g) (hs : Stacked s) (hl : s.live = below ++ [lhs, rhs]) {c : FaultCause}
    (hg : g s.params lhs rhs = .error c) : FaultsWith i s c := by
  have hsp : s.sp = below.length + 2 := by simpa using hs.sp_eq hl
  obtain ⟨hrhs, hlhs, _⟩ := hs.pop_pop_live hl
  have hg' : g s.params (pop (pop s).2).1 (pop s).1 = .error c := by rwa [hrhs, hlhs]
  exact (hi.exec_eq s).trans
    (binary_fault hi.pops_eq hi.pushes_eq (hsp ▸ Nat.le_add_left 2 _) (Nat.le_succ_of_le hs.2) hg')

theorem underflow (hi : IsBinary i g) (h : s.sp < 2) : FaultsWith i s (.stackUnderflow i.mnemonic s.sp) :=
  faultsWith_stackUnderflow (hi.pops_eq ▸ h)

/-- R64 for an operation that never faults. -/
theorem binaryRule (hi : IsBinary i g) (henc : encode .default i = [byte])
    (hg : ∀ p lhs rhs, g p lhs rhs = .ok (f p.width lhs rhs)) : BinaryRule i byte f :=
  ⟨henc, fun _ _ _ _ hs hl => hi.stackResult hs hl (hg _ _ _), fun _ => hi.underflow⟩

/-- R64 for an operation that faults where `ok` fails. -/
theorem guardedBinaryRule (hi : IsBinary i g) (henc : encode .default i = [byte])
    {ok : Width → Word → Word → Prop} {c : Word → Word → FaultCause}
    (hok : ∀ p lhs rhs, ok p.width lhs rhs → g p lhs rhs = .ok (f p.width lhs rhs))
    (hfault : ∀ p lhs rhs, ¬ ok p.width lhs rhs → g p lhs rhs = .error (c lhs rhs)) :
    GuardedBinaryRule i byte ok f c :=
  ⟨henc, fun _ _ _ _ hs hl h => hi.stackResult hs hl (hok _ _ _ h),
    fun _ _ _ _ hs hl h => hi.faultsWith hs hl (hfault _ _ _ h), fun _ => hi.underflow⟩

theorem add : IsBinary .add (fun p lhs rhs => .ok (addWord p.width lhs rhs)) := ⟨rfl, rfl, rfl, fun _ => rfl⟩
theorem sub : IsBinary .sub (fun p lhs rhs => .ok (subWord p.width lhs rhs)) := ⟨rfl, rfl, rfl, fun _ => rfl⟩
theorem mult : IsBinary .mult (fun p lhs rhs => .ok (multWord p.width lhs rhs)) := ⟨rfl, rfl, rfl, fun _ => rfl⟩
theorem div : IsBinary .div (fun p => divWord p.width) := ⟨rfl, rfl, rfl, fun _ => rfl⟩
theorem mod : IsBinary .mod (fun p => modWord p.width) := ⟨rfl, rfl, rfl, fun _ => rfl⟩
theorem pow : IsBinary .pow powWord := ⟨rfl, rfl, rfl, fun _ => rfl⟩

end IsBinary

/-! ## What the operations compute (R11, R65 to R70) -/

/-- R11: the model's narrowing is the residue modulo `2^W` of the statements. -/
theorem wrap_eq_mod2W (w : Width) (x : Int) : wrap w x = mod2W w x := by
  have hpos : (0 : Int) < 2 ^ w.bits := Int.pow_pos (by decide)
  rw [wrap, mod2W, ← BitVec.ofInt_natCast, Nat.cast_pow, Nat.cast_ofNat,
    Int.toNat_of_nonneg (Int.emod_nonneg x hpos.ne')]

theorem wrap_natCast_of_lt {w : Width} {n : Nat} (h : n < 2 ^ w.bits) : wrap w (n : Int) = BitVec.ofNat 64 n := by
  have hn : n < 2 ^ 64 := h.trans_le (two_pow_bits_le w)
  apply BitVec.eq_of_toNat_eq
  rw [wrap_toNat_of_lt h, BitVec.toNat_ofNat, Nat.mod_eq_of_lt hn]

theorem divWord_of_ne_zero (w : Width) (lhs : Word) {rhs : Word} (h : rhs.toNat ≠ 0) :
    divWord w lhs rhs = .ok (mod2W w (lhs.toNat / rhs.toNat : Nat)) := by
  rw [divWord, if_neg h, wrap_eq_mod2W]

theorem divWord_of_zero (w : Width) (lhs : Word) {rhs : Word} (h : rhs.toNat = 0) :
    divWord w lhs rhs = .error (.divisionByZero lhs) := if_pos h

theorem modWord_of_ne_zero (w : Width) (lhs : Word) {rhs : Word} (h : rhs.toNat ≠ 0) :
    modWord w lhs rhs = .ok (mod2W w (lhs.toNat % rhs.toNat : Nat)) := by
  rw [modWord, if_neg h, wrap_eq_mod2W]

theorem modWord_of_zero (w : Width) (lhs : Word) {rhs : Word} (h : rhs.toNat = 0) :
    modWord w lhs rhs = .error (.divisionByZero lhs) := if_pos h

section
variable {p : Params} {lhs rhs : Word}

/-- R70: the test on the capped power is the test on the exact one. -/
theorem powCapped_lt_powLimit_iff (w : Width) (x y : Nat) :
    powCapped x y < powLimit w ↔ x ^ y < 2 ^ min w.bits 53 :=
  powCapped_lt_iff ((powLimit_le w).trans (two_pow_bits_le w)) x y

theorem powWord_of_lt (h : lhs.toNat ^ rhs.toNat < 2 ^ min p.width.bits 53) :
    powWord p lhs rhs = .ok (BitVec.ofNat 64 (lhs.toNat ^ rhs.toNat)) := by
  have hW : lhs.toNat ^ rhs.toNat < 2 ^ p.width.bits := h.trans_le (powLimit_le p.width)
  rw [powWord, if_pos ((powCapped_lt_powLimit_iff _ _ _).2 h), powCapped_eq (hW.trans_le (two_pow_bits_le _)),
    wrap_natCast_of_lt hW]

theorem powWord_of_ge_fault (h : 2 ^ min p.width.bits 53 ≤ lhs.toNat ^ rhs.toNat) (hp : p.powWide = .fault) :
    powWord p lhs rhs = .error (.powOutOfRange lhs rhs) := by
  rw [powWord, if_neg (mt (powCapped_lt_powLimit_iff _ _ _).1 (Nat.not_lt.2 h)), hp]

theorem powWord_of_ge_value (h : 2 ^ min p.width.bits 53 ≤ lhs.toNat ^ rhs.toNat) (hp : p.powWide = .value) :
    powWord p lhs rhs = .ok (mod2W p.width (Config.powWideValue p.width lhs rhs).toNat) := by
  rw [powWord, if_neg (mt (powCapped_lt_powLimit_iff _ _ _).1 (Nat.not_lt.2 h)), hp, wrap_eq_mod2W]

end

/-! ## The rules -/

/-- Settles O30: the three operations narrow the exact integer result once. -/
theorem wrappingArithmeticRules : Obligations.WrappingArithmeticRules :=
  ⟨IsBinary.add.binaryRule (by decide) fun _ _ _ => congrArg Except.ok (wrap_eq_mod2W _ _),
    IsBinary.sub.binaryRule (by decide) fun _ _ _ => congrArg Except.ok (wrap_eq_mod2W _ _),
    IsBinary.mult.binaryRule (by decide) fun _ _ _ => congrArg Except.ok (wrap_eq_mod2W _ _)⟩

/-- Settles O31: by whether the divisor is 0. -/
theorem divisionRules : Obligations.DivisionRules :=
  ⟨IsBinary.div.guardedBinaryRule (by decide) (fun _ _ _ => divWord_of_ne_zero _ _)
      fun _ _ _ h => divWord_of_zero _ _ (not_not.1 h),
    IsBinary.mod.guardedBinaryRule (by decide) (fun _ _ _ => modWord_of_ne_zero _ _)
      fun _ _ _ h => modWord_of_zero _ _ (not_not.1 h)⟩

/-- Settles O32: the exact power is compared with `T`, and above it `POW_WIDE` decides. -/
theorem powRule : Obligations.PowRule :=
  ⟨by decide, fun _ _ _ _ hs hl h => IsBinary.pow.stackResult hs hl (powWord_of_lt h),
    fun _ _ _ _ hs hl h hp => IsBinary.pow.faultsWith hs hl (powWord_of_ge_fault h hp),
    fun _ _ _ _ hs hl h hp => IsBinary.pow.stackResult hs hl (powWord_of_ge_value h hp),
    fun _ => IsBinary.pow.underflow⟩

end Sys2Proof.Machine
end

section
/-! PROOFS. The statements of 43_comparison.md: EQ, NEQ, LT, LTE, GT and GTE. -/

namespace Sys2Proof.Machine

open Sys2Proof.Claims

/-- R10: the model's word of a Boolean result is that of the statements. -/
theorem boolWord_decide (c : Prop) [Decidable c] : boolWord (decide c) = truth c := by
  by_cases h : c
  · rw [boolWord, truth, if_pos h, if_pos (decide_eq_true h)]
  · rw [boolWord, truth, if_neg h, if_neg (mt of_decide_eq_true h)]

namespace IsBinary

/-- R64 for an operation that decides a relation of its two words. -/
theorem truthRule {i : Instr} {byte : Byte} {r : Word → Word → Prop} [∀ lhs rhs, Decidable (r lhs rhs)]
    (hi : IsBinary i fun _ lhs rhs => .ok (boolWord (decide (r lhs rhs)))) (henc : encode .default i = [byte]) :
    BinaryRule i byte fun _ lhs rhs => truth (r lhs rhs) :=
  hi.binaryRule henc fun _ lhs rhs => congrArg Except.ok (boolWord_decide (r lhs rhs))

theorem eq : IsBinary .eq (fun _ lhs rhs => .ok (boolWord (decide (lhs.toNat = rhs.toNat)))) :=
  ⟨rfl, rfl, rfl, fun _ => rfl⟩
theorem neq : IsBinary .neq (fun _ lhs rhs => .ok (boolWord (decide (lhs.toNat ≠ rhs.toNat)))) :=
  ⟨rfl, rfl, rfl, fun _ => rfl⟩
theorem lt : IsBinary .lt (fun _ lhs rhs => .ok (boolWord (decide (lhs.toNat < rhs.toNat)))) :=
  ⟨rfl, rfl, rfl, fun _ => rfl⟩
theorem lte : IsBinary .lte (fun _ lhs rhs => .ok (boolWord (decide (lhs.toNat ≤ rhs.toNat)))) :=
  ⟨rfl, rfl, rfl, fun _ => rfl⟩
theorem gt : IsBinary .gt (fun _ lhs rhs => .ok (boolWord (decide (lhs.toNat > rhs.toNat)))) :=
  ⟨rfl, rfl, rfl, fun _ => rfl⟩
theorem gte : IsBinary .gte (fun _ lhs rhs => .ok (boolWord (decide (lhs.toNat ≥ rhs.toNat)))) :=
  ⟨rfl, rfl, rfl, fun _ => rfl⟩

end IsBinary

/-- Settles O33: each of the six decides its relation of the operands as unsigned numbers. -/
theorem comparisonRules : Obligations.ComparisonRules :=
  ⟨IsBinary.eq.truthRule (by decide), IsBinary.neq.truthRule (by decide), IsBinary.lt.truthRule (by decide),
    IsBinary.lte.truthRule (by decide), IsBinary.gt.truthRule (by decide), IsBinary.gte.truthRule (by decide)⟩

end Sys2Proof.Machine
end

section
/-! PROOFS. The statement of 44_logical.md: AND, OR, XOR and NOT. -/

namespace Sys2Proof.Machine

open Sys2Proof.Claims

/-! ## Unary instructions (R80, R84) -/

/-- `i` is an instruction of one byte that replaces the top word by what `g` makes of it. -/
structure IsUnary (i : Instr) (g : Params → Word → Word) : Prop where
  pops_eq : pops i.mnemonic = 1
  pushes_eq : pushes i.mnemonic = 1
  format_eq : formatOf i.mnemonic = .F0
  exec_eq : ∀ s, exec i s = unary i.mnemonic (g s.params) s

namespace IsUnary

variable {i : Instr} {byte : Byte} {g : Params → Word → Word} {f : Width → Word → Word} {s : State}
  {below : List Word} {v : Word}

theorem stackResult (hi : IsUnary i g) (hs : Stacked s) (hl : s.live = below ++ [v]) :
    StackResult i s 1 (below ++ [g s.params v]) := by
  have h : WithStack s s (below ++ [v]) := .of_stacked hs hl
  have hsp : s.sp = below.length + 1 := by simpa using h.sp_eq
  have hroom : below.length < s.stk.length := by have := hs.sp_le_length; omega
  have hexec := (hi.exec_eq s).trans (unary_ok hi.pops_eq hi.pushes_eq (hsp ▸ Nat.le_add_left 1 _) hs.2)
  have hleaves : Leaves i s (below ++ [g s.params v]) :=
    leaves_of_commit (h.pop.push (congrArg (g s.params) h.pop_fst) hroom) hexec
  simpa only [lengthOf, hi.format_eq] using hleaves.stackResult

/-- The rule of an operation that is `f` on the words of `W` bits. -/
theorem unaryRule (hi : IsUnary i g) (henc : encode .default i = [byte])
    (hg : ∀ p v, p.width.fits v → g p v = f p.width v) : UnaryRule i byte f :=
  ⟨henc, fun _ _ _ hs hl hv => hg _ _ hv ▸ hi.stackResult hs hl,
    fun _ h => faultsWith_stackUnderflow (hi.pops_eq ▸ h)⟩

theorem not : IsUnary .not (fun _ v => boolWord (!truthy v)) := ⟨rfl, rfl, rfl, fun _ => rfl⟩

end IsUnary

/-! ## Truth values (R10) -/

theorem truthy_iff (v : Word) : truthy v = true ↔ v.toNat ≠ 0 := bne_iff_ne

/-- R10: the word of a Boolean that says whether `c` holds. -/
theorem boolWord_eq_truth {b : Bool} {c : Prop} [Decidable c] (h : b = true ↔ c) : boolWord b = truth c := by
  rw [← boolWord_decide c, Bool.eq_iff_iff.2 (h.trans decide_eq_true_iff.symm)]

theorem truthy_and_iff (lhs rhs : Word) :
    (truthy lhs && truthy rhs) = true ↔ lhs.toNat ≠ 0 ∧ rhs.toNat ≠ 0 := by
  rw [Bool.and_eq_true, truthy_iff, truthy_iff]

theorem truthy_or_iff (lhs rhs : Word) :
    (truthy lhs || truthy rhs) = true ↔ lhs.toNat ≠ 0 ∨ rhs.toNat ≠ 0 := by
  rw [Bool.or_eq_true, truthy_iff, truthy_iff]

/-- Exactly one of two words is true where exactly one of them is 0. -/
theorem truthy_bne_iff (lhs rhs : Word) :
    (truthy lhs != truthy rhs) = true ↔ (lhs.toNat = 0) ≠ (rhs.toNat = 0) := by
  refine bne_iff_ne.trans (not_congr ?_)
  rw [Bool.eq_iff_iff, truthy_iff, truthy_iff, not_iff_not, eq_iff_iff]

theorem not_truthy_iff (v : Word) : (!truthy v) = true ↔ v.toNat = 0 := by
  rw [Bool.not_eq_true', ← Bool.not_eq_true, truthy_iff, not_not]

/-! ## AND, OR, XOR and NOT (R77 to R80) -/

namespace IsBinary

/-- R64 for an operation that answers a Boolean, which says whether `r` holds of the two words. -/
theorem boolRule {i : Instr} {byte : Byte} {b : Word → Word → Bool} {r : Word → Word → Prop}
    [∀ lhs rhs, Decidable (r lhs rhs)] (hi : IsBinary i fun _ lhs rhs => .ok (boolWord (b lhs rhs)))
    (henc : encode .default i = [byte]) (hb : ∀ lhs rhs, b lhs rhs = true ↔ r lhs rhs) :
    BinaryRule i byte fun _ lhs rhs => truth (r lhs rhs) :=
  hi.binaryRule henc fun _ lhs rhs => congrArg Except.ok (boolWord_eq_truth (hb lhs rhs))

theorem and : IsBinary .and (fun _ lhs rhs => .ok (boolWord (truthy lhs && truthy rhs))) :=
  ⟨rfl, rfl, rfl, fun _ => rfl⟩
theorem or : IsBinary .or (fun _ lhs rhs => .ok (boolWord (truthy lhs || truthy rhs))) :=
  ⟨rfl, rfl, rfl, fun _ => rfl⟩
theorem xor : IsBinary .xor (fun _ lhs rhs => .ok (boolWord (truthy lhs != truthy rhs))) :=
  ⟨rfl, rfl, rfl, fun _ => rfl⟩

end IsBinary

/-- Settles O34: the Boolean each operation answers says whether its relation holds of the operands as numbers. -/
theorem logicalRules : Obligations.LogicalRules :=
  ⟨IsBinary.and.boolRule (by decide) truthy_and_iff, IsBinary.or.boolRule (by decide) truthy_or_iff,
    IsBinary.xor.boolRule (by decide) truthy_bne_iff,
    IsUnary.not.unaryRule (by decide) fun _ v _ => boolWord_eq_truth (not_truthy_iff v)⟩

end Sys2Proof.Machine
end

section
/-! PROOFS. The statements of 45_bitwise.md: BITWISE_AND, BITWISE_OR, BITWISE_XOR, BITWISE_NOT, SHIFT_LEFT and
SHIFT_RIGHT. -/

namespace Sys2Proof.Machine

open Sys2Proof.Claims

/-! ## The instructions in their frames (R64, R84) -/

namespace IsBinary

theorem bitwiseAnd : IsBinary .bitwiseAnd (fun _ lhs rhs => .ok (lhs &&& rhs)) := ⟨rfl, rfl, rfl, fun _ => rfl⟩
theorem bitwiseOr : IsBinary .bitwiseOr (fun _ lhs rhs => .ok (lhs ||| rhs)) := ⟨rfl, rfl, rfl, fun _ => rfl⟩
theorem bitwiseXor : IsBinary .bitwiseXor (fun _ lhs rhs => .ok (lhs ^^^ rhs)) := ⟨rfl, rfl, rfl, fun _ => rfl⟩
theorem shiftLeft : IsBinary .shiftLeft (fun p => shiftLeftWord p.width) := ⟨rfl, rfl, rfl, fun _ => rfl⟩
theorem shiftRight : IsBinary .shiftRight (fun p => shiftRightWord p.width) := ⟨rfl, rfl, rfl, fun _ => rfl⟩

end IsBinary

theorem IsUnary.bitwiseNot : IsUnary .bitwiseNot (fun p => notWord p.width) := ⟨rfl, rfl, rfl, fun _ => rfl⟩

/-! ## What the operations compute (R81 to R86) -/

theorem eq_ofNat_of_toNat_eq {v : Word} {n : Nat} (h : v.toNat = n) : v = BitVec.ofNat 64 n := by
  rw [← h, BitVec.ofNat_toNat, BitVec.setWidth_eq]

/-- R84: on a word of `W` bits the subtraction stays within `[0, 2^W)`, so nothing is narrowed away. -/
theorem notWord_of_fits {w : Width} {v : Word} (h : w.fits v) :
    notWord w v = BitVec.ofNat 64 (2 ^ w.bits - 1 - v.toNat) := by
  have hle : v.toNat ≤ 2 ^ w.bits - 1 := Nat.le_sub_one_of_lt h
  have hlt : 2 ^ w.bits - 1 - v.toNat < 2 ^ w.bits :=
    (Nat.sub_le _ _).trans_lt (Nat.sub_one_lt_of_lt (two_pow_bits_pos w))
  rw [notWord, ← Nat.cast_sub hle, wrap_natCast_of_lt hlt]

section
variable {w : Width} {rhs : Word}

theorem shiftLeftWord_of_lt (lhs : Word) (h : rhs.toNat < w.bits) :
    shiftLeftWord w lhs rhs = .ok (mod2W w (lhs.toNat * 2 ^ rhs.toNat : Nat)) := by
  rw [shiftLeftWord, if_neg (Nat.not_le.2 h), wrap_eq_mod2W]

theorem shiftLeftWord_of_ge (lhs : Word) (h : w.bits ≤ rhs.toNat) :
    shiftLeftWord w lhs rhs = .error (.invalidShift rhs) := if_pos h

theorem shiftRightWord_of_lt (lhs : Word) (h : rhs.toNat < w.bits) :
    shiftRightWord w lhs rhs = .ok (mod2W w (lhs.toNat / 2 ^ rhs.toNat : Nat)) := by
  rw [shiftRightWord, if_neg (Nat.not_le.2 h), wrap_eq_mod2W]

theorem shiftRightWord_of_ge (lhs : Word) (h : w.bits ≤ rhs.toNat) :
    shiftRightWord w lhs rhs = .error (.invalidShift rhs) := if_pos h

end

/-! ## The rules -/

/-- Settles O35: the three binary operations of the words are those of their numbers, and the complement of a word of
`W` bits is the exact difference. -/
theorem bitwiseRules : Obligations.BitwiseRules :=
  ⟨IsBinary.bitwiseAnd.binaryRule (by decide) fun _ _ _ =>
      congrArg Except.ok (eq_ofNat_of_toNat_eq (BitVec.toNat_and _ _)),
    IsBinary.bitwiseOr.binaryRule (by decide) fun _ _ _ =>
      congrArg Except.ok (eq_ofNat_of_toNat_eq (BitVec.toNat_or _ _)),
    IsBinary.bitwiseXor.binaryRule (by decide) fun _ _ _ =>
      congrArg Except.ok (eq_ofNat_of_toNat_eq (BitVec.toNat_xor _ _)),
    IsUnary.bitwiseNot.unaryRule (by decide) fun _ _ => notWord_of_fits⟩

/-- Settles O36: by whether the amount is below `W`. -/
theorem shiftRules : Obligations.ShiftRules :=
  ⟨IsBinary.shiftLeft.guardedBinaryRule (by decide) (fun _ lhs _ => shiftLeftWord_of_lt lhs)
      fun _ lhs _ h => shiftLeftWord_of_ge lhs (Nat.not_lt.1 h),
    IsBinary.shiftRight.guardedBinaryRule (by decide) (fun _ lhs _ => shiftRightWord_of_lt lhs)
      fun _ lhs _ h => shiftRightWord_of_ge lhs (Nat.not_lt.1 h)⟩

end Sys2Proof.Machine
end

section
/-! PROOFS. The statement of 46_memory_ops.md on ALLOC by the oracle's answer; the others of that chapter stand
before the encoding's. -/

namespace Sys2Proof.Machine

open Sys2Proof.Claims

/-! ## The allocator by the oracle's answer (R35) -/

/-- An answer the script holds is the oracle's, whatever the free value is (log 5). -/
theorem allocAnswer_of_script {s : State} {r : AllocAnswer} (h : s.allocScript[s.allocDraws]? = some r) :
    allocAnswer s = r := by
  rw [allocAnswer, h, Option.getD_some]

theorem alloc_of_base {s : State} {n b : Word} (h : allocAnswer s = .base b)
    (hb : Admissible s.params.width n.toNat b s.heap) : ∃ u, alloc n s = some (b, u) := by
  simp only [alloc, h, if_pos (admits_iff_admissible.2 hb)]
  exact ⟨_, rfl⟩

theorem alloc_of_fail {s : State} {n : Word} (h : allocAnswer s = .fail) : alloc n s = none := by
  simp only [alloc, h]

/-- R35: above a base that is not 0, a block ends past the address space where its size alone fills it. -/
theorem not_admissible_of_too_big {w : Width} {n : Nat} {b : Word} {m : Memory} (h : 2 ^ w.bits ≤ max n 1 * w.bytes) :
    ¬ Admissible w n b m := by
  rintro ⟨hne, _, hle, _⟩
  omega

/-- R87: a size no base can hold fails for every answer of the oracle. -/
theorem alloc_of_too_big {s : State} {n : Word}
    (h : 2 ^ s.params.width.bits ≤ max n.toNat 1 * s.params.width.bytes) : alloc n s = none := by
  rw [Option.eq_none_iff_forall_ne_some]
  rintro ⟨b, u⟩ hsome
  obtain ⟨_, hadm, _⟩ := alloc_spec hsome
  exact not_admissible_of_too_big h (admits_iff_admissible.1 hadm)

/-- Settles O37: each answer of the oracle decides what the allocator gives, and ALLOC completes or faults by that;
the full stack is the depth check's fault, the short immediate the fetch's. -/
theorem allocRule : Obligations.AllocRule := by
  refine ⟨fun imm => ?encoding, fun s imm b hs hcap hscript hb => ?admissible, fun s imm _ hcap hscript => ?failed,
    fun s imm _ hcap hbig => exec_alloc_failed hcap (alloc_of_too_big hbig), fun s imm hfull => ?full,
    immediateChecked_of_FI rfl⟩
  case encoding => exact congrArg (0x1B :: ·) (bytesOfWord_eq_map 8 imm.toNat)
  case admissible =>
    obtain ⟨u, hu⟩ := alloc_of_base (allocAnswer_of_script hscript) hb
    obtain ⟨t, he, _, ht⟩ := exec_alloc_allocated hs hcap hu
    exact ⟨t, he, ht⟩
  case failed => exact exec_alloc_failed hcap (alloc_of_fail (allocAnswer_of_script hscript))
  case full => exact faultsWith_stackOverflow (i := .alloc imm) (Nat.zero_le _) (hfull ▸ Nat.lt_succ_self _)

end Sys2Proof.Machine
end

section
/-! PROOFS. The statements of 47_control.md: JMP, JMP_IF_TRUE and JMP_IF_FALSE. -/

namespace Sys2Proof.Machine

open Sys2Proof.Claims

variable {s : State} {below : List Word} {c : Word}

/-- R92: the jump pops nothing and does not look at its target. -/
theorem exec_jmp (imm : Word) (hs : Stacked s) : exec (.jmp imm) s = .next { s with pc := imm } := by
  rw [exec, execJmp, runInstr_ok (op := .jmp) (Nat.zero_le _) hs.2]
  rfl

/-! ## Conditional jumps (R93, R94) -/

/-- R93: a jump where the popped word is not 0. -/
theorem exec_jmpIfTrue (imm : Word) (hs : Stacked s) (hl : s.live = below ++ [c]) :
    exec (.jmpIfTrue imm) s =
      .next { (pop s).2 with pc := if c.toNat ≠ 0 then imm else nextPc .jmpIfTrue s } := by
  have hc : (pop s).1 = c := (WithStack.of_stacked hs hl).pop_fst
  rw [exec, execJmpIfTrue, runInstr_of_live hs hl (by simp [pops]) (by decide)]
  simp only [hc, truthy_iff]
  split <;> rfl

/-- R94: a jump where the popped word is 0. -/
theorem exec_jmpIfFalse (imm : Word) (hs : Stacked s) (hl : s.live = below ++ [c]) :
    exec (.jmpIfFalse imm) s =
      .next { (pop s).2 with pc := if c.toNat ≠ 0 then nextPc .jmpIfFalse s else imm } := by
  have hc : (pop s).1 = c := (WithStack.of_stacked hs hl).pop_fst
  rw [exec, execJmpIfFalse, runInstr_of_live hs hl (by simp [pops]) (by decide)]
  simp only [hc, truthy_iff]
  split <;> rfl

/-- Both outcomes of a conditional jump consume the condition and leave all else but the pc as it was. -/
theorem withStack_pop_setPc (hs : Stacked s) (hl : s.live = below ++ [c]) (a : Word) :
    WithStack s { (pop s).2 with pc := a } below :=
  (WithStack.of_stacked hs hl).pop.setPc a

/-! ## The rules -/

/-- Settles O43: one pop serves both conditional jumps, and the condition chooses the pc; the depth check and the
fetch give the faults. -/
theorem jumpRules : Obligations.JumpRules := by
  refine ⟨fun imm => ⟨?_, ?_, ?_⟩, fun s imm => exec_jmp imm, fun s below c imm hs hl => ?ifTrue,
    fun s imm h => ?underflowTrue, fun s below c imm hs hl => ?ifFalse, fun s imm h => ?underflowFalse,
    ⟨immediateChecked_of_FI rfl, immediateChecked_of_FI rfl, immediateChecked_of_FI rfl⟩, fetchPastBodyFaults⟩
  · exact congrArg (0x1F :: ·) (bytesOfWord_eq_map 8 imm.toNat)
  · exact congrArg (0x20 :: ·) (bytesOfWord_eq_map 8 imm.toNat)
  · exact congrArg (0x21 :: ·) (bytesOfWord_eq_map 8 imm.toNat)
  case ifTrue =>
    have ht := withStack_pop_setPc hs hl (if c.toNat ≠ 0 then imm else nextPc .jmpIfTrue s)
    exact ⟨_, exec_jmpIfTrue imm hs hl, ht.live, ht.sp_eq, fun h => if_pos h,
      fun h => pcMoved_nextPc (op := .jmpIfTrue) (if_neg (not_not.2 h)), ht.frame⟩
  case underflowTrue => exact h ▸ faultsWith_stackUnderflow (i := .jmpIfTrue imm) (h ▸ Nat.one_pos)
  case ifFalse =>
    have ht := withStack_pop_setPc hs hl (if c.toNat ≠ 0 then nextPc .jmpIfFalse s else imm)
    exact ⟨_, exec_jmpIfFalse imm hs hl, ht.live, ht.sp_eq, fun h => if_neg (not_not.2 h),
      fun h => pcMoved_nextPc (op := .jmpIfFalse) (if_pos h), ht.frame⟩
  case underflowFalse => exact h ▸ faultsWith_stackUnderflow (i := .jmpIfFalse imm) (h ▸ Nat.one_pos)

/-- Settles O44: the first step is the jump's, and the fetch at the target finds no byte. -/
theorem jumpPastBodyFaultsAtTarget : Obligations.JumpPastBodyFaultsAtTarget := by
  intro s k hs hr hf hk
  exact ⟨(step_of_fetch_ok hr hf).trans (exec_jmp k hs), fetchPastBodyFaults { s with pc := k } hr hk⟩

end Sys2Proof.Machine
end

section
/-! PROOFS. The statements of 48_io.md: PRINT, PRINT_INT, INPUT, INPUT_INT and the hold of the two input
instructions. -/

namespace Sys2Proof.Machine

open Sys2Proof.Claims

/-! ## PRINT and PRINT_INT (R95, R96) -/

/-- R95, R96: `exec i s` completes, and has moved the top word off the stack `below ++ [v]` and `bs` to the output. -/
def Emits (i : Instr) (s : State) (below : List Word) (bs : List Byte) : Prop :=
  ∃ t, exec i s = .next t ∧ t.live = below ∧ t.sp = below.length ∧ PcMoved s t 1 ∧ t.outHist = s.outHist ++ bs ∧
    t = { s with stk := t.stk, sp := t.sp, pc := t.pc, outHist := t.outHist }

/-- `i` is an instruction of one byte that pops a word and appends what `g` makes of it to the output. -/
structure IsPrint (i : Instr) (g : Word → List Byte) : Prop where
  pops_eq : pops i.mnemonic = 1
  pushes_eq : pushes i.mnemonic = 0
  format_eq : formatOf i.mnemonic = .F0
  exec_eq : ∀ s, exec i s = runInstr i.mnemonic (fun s => .done (out (g (pop s).1) (pop s).2)) s

namespace IsPrint

variable {i : Instr} {g : Word → List Byte} {s : State} {below : List Word} {v : Word}

theorem emits (hi : IsPrint i g) (hs : Stacked s) (hl : s.live = below ++ [v]) : Emits i s below (g v) := by
  obtain ⟨htop, hlive, hsp⟩ := pop_live hs.sp_le_length hl
  have hexec : exec i s = .next { out (g v) (pop s).2 with pc := nextPc i.mnemonic s } := by
    rw [hi.exec_eq, runInstr_of_live hs hl (by simp [hi.pops_eq]) (by simp [hi.pushes_eq]), htop]
    rfl
  have hmoved := pcMoved_nextPc (s := s) (t := { out (g v) (pop s).2 with pc := nextPc i.mnemonic s }) rfl
  rw [lengthOf, hi.format_eq] at hmoved
  exact ⟨_, hexec, hlive, hsp, hmoved, rfl, rfl⟩

theorem underflow (hi : IsPrint i g) (h : s.sp = 0) : FaultsWith i s (.stackUnderflow i.mnemonic 0) :=
  h ▸ faultsWith_stackUnderflow (by rw [hi.pops_eq, h]; exact Nat.one_pos)

theorem print : IsPrint .print (fun v => [BitVec.ofNat 8 v.toNat]) := ⟨rfl, rfl, rfl, fun _ => rfl⟩
theorem printInt : IsPrint .printInt (fun v => decimal v ++ [0x0A]) := ⟨rfl, rfl, rfl, fun _ => rfl⟩

end IsPrint

/-- R96: the byte of a decimal digit is its character's code. -/
theorem ofNat_digitChar {d : Nat} (h : d < 10) : BitVec.ofNat 8 (0x30 + d) = BitVec.ofNat 8 d.digitChar.toNat := by
  rw [Nat.toNat_digitChar_of_lt_ten h]

/-- R96: with fuel for all its digits, the decimal form of a number is the library's. -/
theorem decimalDigits_eq_toDigits {fuel v : Nat} (h : v < 10 ^ (fuel + 1)) :
    decimalDigits (fuel + 1) v = (Nat.toDigits 10 v).map fun c => BitVec.ofNat 8 c.toNat := by
  induction fuel generalizing v with
  | zero =>
    have hv : v < 10 := by omega
    rw [decimalDigits, if_pos hv, Nat.toDigits_of_lt_base hv, ofNat_digitChar hv, List.map_singleton]
  | succ fuel ih =>
    rw [decimalDigits]
    split
    · next hv => rw [Nat.toDigits_of_lt_base hv, ofNat_digitChar hv, List.map_singleton]
    · next hv =>
      have hdiv : v / 10 < 10 ^ (fuel + 1) := Nat.div_lt_of_lt_mul (by rwa [Nat.pow_succ, Nat.mul_comm] at h)
      rw [ih hdiv, ofNat_digitChar (Nat.mod_lt v (by decide)),
        Nat.toDigits_of_base_le (by decide) (Nat.le_of_not_lt hv), List.map_append, List.map_singleton]

/-- A word of 64 bits has at most 20 digits. -/
theorem decimal_eq_toDigits (v : Word) :
    decimal v = (Nat.toDigits 10 v.toNat).map fun c => BitVec.ofNat 8 c.toNat :=
  decimalDigits_eq_toDigits (v.isLt.trans (by decide))

/-- Settles O46: both are one pop and one append; the bytes appended are the low byte, and the digits with 0x0A. -/
theorem printRules : Obligations.PrintRules := by
  refine ⟨⟨by decide, by decide⟩, fun s below v hs hl => ?print, fun s => IsPrint.print.underflow,
    fun s below v hs hl => ?printInt, fun s => IsPrint.printInt.underflow⟩
  case print =>
    have hbyte : BitVec.ofNat 8 (v.toNat % 256) = BitVec.ofNat 8 v.toNat := BitVec.eq_of_toNat_eq (by simp)
    exact hbyte ▸ IsPrint.print.emits hs hl
  case printInt =>
    rw [List.append_assoc, ← decimal_eq_toDigits]
    exact IsPrint.printInt.emits hs hl

/-! ## The frame of INPUT and INPUT_INT (R97, R98) -/

/-- `exec i s` completes, and has taken `n` bytes of the input and pushed `v`. -/
def Takes (i : Instr) (s : State) (v : Word) (n : Nat) : Prop :=
  ∃ t, exec i s = .next t ∧ t.live = s.live ++ [v] ∧ t.sp = s.sp + 1 ∧ PcMoved s t 1 ∧ t.inPos = s.inPos + n ∧
    t = { s with stk := t.stk, sp := t.sp, pc := t.pc, inPos := t.inPos }

/-- `i` is an instruction of one byte that pushes what `scan` finds in the input. -/
structure IsInput (i : Instr) (scan : State → InputScan) : Prop where
  pops_eq : pops i.mnemonic = 0
  pushes_eq : pushes i.mnemonic = 1
  format_eq : formatOf i.mnemonic = .F0
  exec_eq : ∀ s, exec i s = runInstr i.mnemonic (fun s => takeInput (scan s) s) s

namespace IsInput

variable {i : Instr} {scan : State → InputScan} {s : State}

theorem exec_of_room (hi : IsInput i scan) (hroom : s.sp < s.params.stackCap) :
    exec i s = commit i.mnemonic s (takeInput (scan s) s) := by
  rw [hi.exec_eq, runInstr_ok (by rw [hi.pops_eq]; exact Nat.zero_le _) (by rw [hi.pops_eq, hi.pushes_eq]; exact hroom)]

theorem takes (hi : IsInput i scan) (hs : Stacked s) (hroom : s.sp < s.params.stackCap) {v : Word} {n : Nat}
    (h : scan s = .value v n) : Takes i s v n := by
  have hexec := hi.exec_of_room hroom
  rw [h, takeInput, commit] at hexec
  have hlive : (push v { s with inPos := s.inPos + n }).live = s.live ++ [v] :=
    push_live (s := { s with inPos := s.inPos + n }) (hs.1 ▸ hroom) v
  have hmoved := pcMoved_nextPc (s := s)
    (t := { push v { s with inPos := s.inPos + n } with pc := nextPc i.mnemonic s }) rfl
  rw [lengthOf, hi.format_eq] at hmoved
  exact ⟨_, hexec, hlive, rfl, hmoved, rfl, rfl⟩

theorem faultsWith (hi : IsInput i scan) (hroom : s.sp < s.params.stackCap) {r : InputReason}
    (h : scan s = .fail r) : FaultsWith i s (.inputError r) := by
  rw [FaultsWith, hi.exec_of_room hroom, h]
  rfl

/-- R97: a full stack is found before the input is looked at. -/
theorem overflow (hi : IsInput i scan) (h : s.sp = s.params.stackCap) :
    FaultsWith i s (.stackOverflow i.mnemonic s.sp) :=
  faultsWith_stackOverflow (by rw [hi.pops_eq]; exact Nat.zero_le _)
    (by rw [hi.pops_eq, hi.pushes_eq, h]; exact Nat.lt_succ_self _)

theorem waiting_iff (hi : IsInput i scan) :
    exec i s = .fault .waiting ↔ s.sp < s.params.stackCap ∧ scan s = .wait :=
  hi.exec_eq s ▸ takeInput_waiting_iff hi.pops_eq hi.pushes_eq scan s

theorem no_next (hi : IsInput i scan) (hroom : s.sp < s.params.stackCap) (h : scan s = .wait) (t : State) :
    exec i s ≠ .next t := by
  rw [hi.waiting_iff.2 ⟨hroom, h⟩]
  nofun

theorem input : IsInput .input (fun s => scanByte s.inEnded (unread s)) := ⟨rfl, rfl, rfl, fun _ => rfl⟩
theorem inputInt : IsInput .inputInt (fun s => scanInt s.params.width s.inEnded (unread s)) :=
  ⟨rfl, rfl, rfl, fun _ => rfl⟩

end IsInput

/-! ## INPUT (R97) -/

theorem scanByte_eq_wait_iff {ended : Bool} {bs : List Byte} :
    scanByte ended bs = .wait ↔ bs = [] ∧ ended = false := by
  cases bs <;> cases ended <;> simp [scanByte]

theorem unread_eq_nil {s : State} (h : s.inStream.length ≤ s.inPos) : unread s = [] :=
  List.drop_eq_nil_of_le h

theorem takes_input {s : State} {b : Byte} (hs : Stacked s) (hroom : s.sp < s.params.stackCap)
    (hb : s.inStream[s.inPos]? = some b) : Takes .input s (BitVec.ofNat 64 b.toNat) 1 := by
  obtain ⟨hlt, hget⟩ := List.getElem?_eq_some_iff.1 hb
  refine IsInput.input.takes hs hroom ?_
  rw [unread, List.drop_eq_getElem_cons hlt, hget, scanByte]

theorem input_endOfInput {s : State} (hroom : s.sp < s.params.stackCap) (hpos : s.inStream.length ≤ s.inPos)
    (hend : s.inEnded = true) : FaultsWith .input s (.inputError .endOfInput) := by
  refine IsInput.input.faultsWith hroom ?_
  rw [unread_eq_nil hpos, hend]
  rfl

/-- R97: a byte supplied where all bytes before it are taken is the next one INPUT takes. -/
theorem takes_input_supplied {s : State} (b : Byte) (bs : List Byte) (hs : Stacked s)
    (hroom : s.sp < s.params.stackCap) (hpos : s.inStream.length = s.inPos) (hopen : s.inEnded = false) :
    Takes .input (supplyInput (b :: bs) s) (BitVec.ofNat 64 b.toNat) 1 := by
  rw [supplyInput_of_open hopen]
  exact takes_input hs hroom (by simp [← hpos])

theorem exec_input_supplied {s : State} (b : Byte) (bs : List Byte) (hs : Stacked s)
    (hroom : s.sp < s.params.stackCap) (hpos : s.inStream.length = s.inPos) (hopen : s.inEnded = false) :
    ∃ t, exec .input (supplyInput (b :: bs) s) = .next t ∧ t.live = s.live ++ [BitVec.ofNat 64 b.toNat] ∧
      t.inPos = s.inPos + 1 := by
  obtain ⟨t, he, hlive, _, _, htaken, _⟩ := takes_input_supplied b bs hs hroom hpos hopen
  rw [supplyInput_of_open hopen] at hlive htaken
  exact ⟨t, he, hlive, htaken⟩

/-- Settles O47: by what the scan of one byte finds, before and after the host acts. -/
theorem inputTakesRawByte : Obligations.InputTakesRawByte := by
  refine ⟨by decide, fun s b => takes_input, fun s _ => input_endOfInput, fun s => IsInput.input.overflow,
    fun s _ hroom hpos hopen => ⟨?_, input_endOfInput (s := endInput s) hroom hpos rfl⟩,
    fun s b bs => exec_input_supplied b bs⟩
  exact IsInput.input.no_next hroom (scanByte_eq_wait_iff.2 ⟨unread_eq_nil hpos, hopen⟩)

/-! ## INPUT_INT (R98) -/

theorem isSpace_iff {b : Byte} : isSpace b = true ↔ White b := by simp [isSpace, White]

theorem isDigit_iff {b : Byte} : isDigit b = true ↔ Digit b := by simp [isDigit, Digit]

theorem not_white_of_digit {b : Byte} (h : Digit b) : ¬ White b := by
  simp only [Digit, White] at *
  omega

/-- R98: reading the digits in order gives the number they stand for. -/
theorem digitsValue_eq_numberOf (ds : List Byte) : digitsValue 0 ds = numberOf ds := by
  induction ds using List.reverseRecOn with
  | nil => rfl
  | append_singleton ds d ih =>
    have hlast : numberOf (ds ++ [d]) = d.toNat - 0x30 + 10 * numberOf ds := by
      simp [numberOf, Nat.ofDigits_cons]
    rw [digitsValue_append, ih, hlast, digitsValue, List.foldl_cons, List.foldl_nil]
    ring

section
variable {w : Width} {ended : Bool} {ws : List Byte} (hws : ∀ b ∈ ws, White b)
include hws

theorem scanInt_of_white : scanInt w ended ws = if ended then .fail .endOfInput else .wait := by
  have hdrop : ws.dropWhile isSpace = [] := List.dropWhile_eq_nil_iff.2 fun b hb => isSpace_iff.2 (hws b hb)
  rw [scanInt, hdrop]

theorem dropWhile_isSpace {b : Byte} (hb : ¬ White b) (rest : List Byte) :
    (ws ++ b :: rest).dropWhile isSpace = b :: rest := by
  rw [List.dropWhile_append_of_pos fun b hb => isSpace_iff.2 (hws b hb),
    List.dropWhile_cons_of_neg (mt isSpace_iff.1 hb)]

theorem takeWhile_isSpace {b : Byte} (hb : ¬ White b) (rest : List Byte) :
    (ws ++ b :: rest).takeWhile isSpace = ws := by
  rw [List.takeWhile_append_of_pos fun b hb => isSpace_iff.2 (hws b hb),
    List.takeWhile_cons_of_neg (mt isSpace_iff.1 hb), List.append_nil]

theorem scanInt_of_not_digit {b : Byte} (hb : ¬ White b) (hd : ¬ Digit b) (rest : List Byte) :
    scanInt w ended (ws ++ b :: rest) = .fail .notANumber := by
  rw [scanInt, dropWhile_isSpace hws hb]
  exact if_neg (mt isDigit_iff.1 hd)

end

/-- The digits `ds` stand at the front of `bs` and no digit follows them: `tail` does. -/
structure DigitRun (bs ds tail : List Byte) : Prop where
  eq_append : bs = ds ++ tail
  ne_nil : ds ≠ []
  digits : ∀ b ∈ ds, Digit b
  ends : ∀ b rest, tail = b :: rest → ¬ Digit b

namespace DigitRun

variable {bs ds tail : List Byte} (h : DigitRun bs ds tail)
include h

theorem takeWhile_isDigit : bs.takeWhile isDigit = ds := by
  rw [h.eq_append, List.takeWhile_append_of_pos fun b hb => isDigit_iff.2 (h.digits b hb)]
  cases tail with
  | nil => exact List.append_nil ds
  | cons b rest => rw [List.takeWhile_cons_of_neg (mt isDigit_iff.1 (h.ends b rest rfl)), List.append_nil]

theorem exists_cons : ∃ d rest, bs = d :: rest ∧ Digit d := by
  obtain ⟨d, ds', rfl⟩ := List.exists_cons_of_ne_nil h.ne_nil
  exact ⟨d, ds' ++ tail, h.eq_append, h.digits d List.mem_cons_self⟩

/-- R98: what INPUT_INT finds in white space, digits and what follows them. -/
theorem scanInt_eq {ws : List Byte} (hws : ∀ b ∈ ws, White b) (w : Width) (ended : Bool) :
    scanInt w ended (ws ++ bs) =
      if tail = [] ∧ ended = false then .wait
      else if 2 ^ w.bits ≤ numberOf ds then .fail .outOfRange
      else .value (BitVec.ofNat 64 (numberOf ds)) (ws.length + ds.length) := by
  have hlen : ds.length = bs.length ↔ tail = [] := by simp [h.eq_append]
  have htake := h.takeWhile_isDigit
  obtain ⟨d, rest, rfl, hd⟩ := h.exists_cons
  have hw := not_white_of_digit hd
  simp only [scanInt, dropWhile_isSpace hws hw, takeWhile_isSpace hws hw, isDigit_iff.2 hd, if_true, htake, hlen,
    digitsValue_eq_numberOf]

end DigitRun

theorem not_of_dropWhile_eq_cons {p : Byte → Bool} {l rest : List Byte} {b : Byte} (h : l.dropWhile p = b :: rest) :
    ¬ p b = true := by
  have hne : l.dropWhile p ≠ [] := h ▸ List.cons_ne_nil b rest
  simpa [h] using List.head_dropWhile_not p hne

/-- The digits at the front of some bytes, and what follows them. -/
theorem digitRun_takeWhile {d : Byte} (hd : Digit d) (rest : List Byte) :
    DigitRun (d :: rest) ((d :: rest).takeWhile isDigit) ((d :: rest).dropWhile isDigit) where
  eq_append := List.takeWhile_append_dropWhile.symm
  ne_nil := by rw [List.takeWhile_cons_of_pos (isDigit_iff.2 hd)]; exact List.cons_ne_nil _ _
  digits b hb := isDigit_iff.1 (List.mem_takeWhile_imp hb)
  ends _ _ h := mt isDigit_iff.2 (not_of_dropWhile_eq_cons h)

/-- R98: all that the unread input of INPUT_INT can be: white space, and then nothing, a byte that is no digit, or
digits. -/
theorem input_shape (bytes : List Byte) : ∃ ws bs, bytes = ws ++ bs ∧ (∀ b ∈ ws, White b) ∧
    (bs = [] ∨ (∃ b rest, bs = b :: rest ∧ ¬ White b ∧ ¬ Digit b) ∨ ∃ ds tail, DigitRun bs ds tail) := by
  refine ⟨bytes.takeWhile isSpace, bytes.dropWhile isSpace, List.takeWhile_append_dropWhile.symm,
    fun b hb => isSpace_iff.1 (List.mem_takeWhile_imp hb), ?_⟩
  cases h : bytes.dropWhile isSpace with
  | nil => exact .inl rfl
  | cons b rest =>
    by_cases hd : Digit b
    · exact .inr (.inr ⟨_, _, digitRun_takeWhile hd rest⟩)
    · exact .inr (.inl ⟨b, rest, rfl, mt isSpace_iff.2 (not_of_dropWhile_eq_cons h), hd⟩)

/-- R98: a number the host ends, by the end of the stream or by another byte, in the terms of the statement. -/
theorem digitRun_of_ended {ds tail : List Byte} {ended : Bool} (hne : ds ≠ []) (hds : ∀ b ∈ ds, Digit b)
    (htail : (tail = [] ∧ ended = true) ∨ ∃ b rest, tail = b :: rest ∧ ¬ Digit b) :
    DigitRun (ds ++ tail) ds tail ∧ ¬ (tail = [] ∧ ended = false) := by
  rcases htail with ⟨rfl, hend⟩ | ⟨b, rest, rfl, hb⟩
  · exact ⟨⟨rfl, hne, hds, nofun⟩, by simp [hend]⟩
  · exact ⟨⟨rfl, hne, hds, fun _ _ h => (List.cons.inj h).1 ▸ hb⟩, by simp⟩

/-- R98: white space and digits that may go on. -/
theorem scanInt_wait {ws ds : List Byte} (hws : ∀ b ∈ ws, White b) (hds : ∀ b ∈ ds, Digit b) (w : Width) :
    scanInt w false (ws ++ ds) = .wait := by
  by_cases hne : ds = []
  · rw [hne, List.append_nil, scanInt_of_white hws]
    rfl
  · have hrun : DigitRun ds ds [] := ⟨(List.append_nil ds).symm, hne, hds, nofun⟩
    rw [hrun.scanInt_eq hws, if_pos ⟨rfl, rfl⟩]

/-- Settles O48: each clause is one shape of the unread input, and the scan of that shape. -/
theorem inputIntReadsDecimal : Obligations.InputIntReadsDecimal := by
  refine ⟨by decide, fun s ws ds tail hs hroom hin hws hne hds htail hlt => ?value,
    fun s ws ds tail _ hroom hin hws hne hds htail hge => ?outOfRange,
    fun s ws b rest _ hroom hin hws hb hd => ?notANumber, fun s _ hroom hws hend => ?endOfInput,
    fun s => IsInput.inputInt.overflow, fun s ws ds _ hroom hin hopen hws hds => ?wait⟩
  case value =>
    obtain ⟨hrun, hended⟩ := digitRun_of_ended hne hds htail
    have hscan : scanInt s.params.width s.inEnded (unread s) =
        .value (BitVec.ofNat 64 (numberOf ds)) (ws.length + ds.length) := by
      rw [unread, hin, List.append_assoc, hrun.scanInt_eq hws, if_neg hended, if_neg (Nat.not_le.2 hlt)]
    exact Nat.add_assoc s.inPos _ _ ▸ IsInput.inputInt.takes hs hroom hscan
  case outOfRange =>
    obtain ⟨hrun, hended⟩ := digitRun_of_ended hne hds htail
    refine IsInput.inputInt.faultsWith hroom ?_
    rw [unread, hin, List.append_assoc, hrun.scanInt_eq hws, if_neg hended, if_pos hge]
  case notANumber =>
    refine IsInput.inputInt.faultsWith hroom ?_
    rw [unread, hin, scanInt_of_not_digit hws hb hd]
  case endOfInput =>
    refine IsInput.inputInt.faultsWith hroom ?_
    rw [unread, scanInt_of_white hws, if_pos hend]
  case wait =>
    refine IsInput.inputInt.no_next hroom ?_
    rw [unread, hin, hopen, scanInt_wait hws hds]

/-! ## The hold over whole steps (R97, R98) -/

/-- R98: at the end of the stream INPUT_INT has all it looks at. -/
theorem scanInt_ended_ne_wait (w : Width) (bytes : List Byte) : scanInt w true bytes ≠ .wait := by
  obtain ⟨ws, bs, rfl, hws, rfl | ⟨b, rest, rfl, hb, hd⟩ | ⟨ds, tail, hrun⟩⟩ := input_shape bytes
  · simp [scanInt_of_white hws]
  · simp [scanInt_of_not_digit hws hb hd]
  · rw [hrun.scanInt_eq hws, if_neg (by simp)]
    split <;> nofun

theorem running_of_held {s : State} (h : held s = true) : s.status = .running := by
  cases hs : s.status with
  | running => rfl
  | halted => simp [held, hs] at h
  | faulted r => simp [held, hs] at h

theorem held_endInput (s : State) : held (endInput s) = false := by
  have hbyte : scanByte true (unread (endInput s)) ≠ .wait := by simp [scanByte_eq_wait_iff]
  have hint := scanInt_ended_ne_wait s.params.width (unread (endInput s))
  unfold held
  split
  · simp [hbyte]
  · simp [hint]
  · rfl

/-- Ending the stream lifts every hold. -/
theorem step_endInput_of_held {s : State} (h : held s = true) : ∃ t, step (endInput s) = .next t := by
  have hr : s.status = .running := running_of_held h
  refine (step_next_or_waiting (s := endInput s) hr).resolve_right fun hw => ?_
  rw [step_waiting_iff_held, held_endInput] at hw
  cases hw

/-- A block held at INPUT has room for the byte, has taken all the host has supplied, and the stream is open. -/
theorem room_of_held_input {s : State} (h : held s = true) (hf : fetch s = .ok .input) :
    s.sp < s.params.stackCap ∧ s.inStream.length ≤ s.inPos ∧ s.inEnded = false := by
  obtain ⟨hroom, hscan⟩ := IsInput.input.waiting_iff.1 ((exec_waiting_iff_held (running_of_held h) hf).2 h)
  obtain ⟨hnil, hopen⟩ := scanByte_eq_wait_iff.1 hscan
  exact ⟨hroom, List.drop_eq_nil_iff.1 hnil, hopen⟩

/-- Settles O49: a hold at INPUT is an empty input with the stream open, which each of the host's moves ends. -/
theorem heldInputHasNoStep : Obligations.HeldInputHasNoStep := by
  refine ⟨step_waiting_iff_held, fun s => step_endInput_of_held, fun s b bs hle hs hheld hf => ?_⟩
  obtain ⟨hroom, hge, hopen⟩ := room_of_held_input hheld hf
  have hfetch : fetch (supplyInput (b :: bs) s) = .ok .input := by rwa [supplyInput_of_open hopen]
  have hr : s.status = .running := running_of_held hheld
  have hrun : (supplyInput (b :: bs) s).status = .running := by rwa [supplyInput_of_open hopen]
  rw [step_of_fetch_ok hrun hfetch]
  exact exec_input_supplied b bs hs hroom (Nat.le_antisymm hge hle) hopen

end Sys2Proof.Machine
end

section
/-! PROOFS. The statements of 49_termination.md: HALT, and the exit status of a run that ends. -/

namespace Sys2Proof.Machine

open Sys2Proof.Claims

/-! ## The exit status (R106) -/

theorem exitStatus_eq_zero_iff {x : Status} : exitStatus x = some 0 ↔ x = .halted := by
  cases x <;> simp [exitStatus]

theorem exitStatus_eq_one_iff {x : Status} : exitStatus x = some 1 ↔ ∃ r, x = .faulted r := by
  cases x <;> simp [exitStatus]

theorem exitStatus_eq_none_iff {x : Status} : exitStatus x = none ↔ x = .running := by
  cases x <;> simp [exitStatus]

/-! ## HALT (R99) -/

theorem exec_halt {s : State} (h : s.sp ≤ s.params.stackCap) :
    exec .halt s = .next { s with status := .halted, pc := nextPc .halt s } := by
  rw [exec, execHalt, runInstr_ok (op := .halt) (Nat.zero_le _) h]
  rfl

/-- R13, R99: only a HALT leaves a block halted. -/
theorem fetch_halt_of_halted {s t : State} (h : step s = .next t) (ht : t.status = .halted) :
    fetch s = .ok .halt := by
  rcases onlyHaltAndFaultsWriteStatus.2.1 s t h with hr | ⟨_, hf⟩ | ⟨r, hr⟩
  · cases ht.symm.trans hr
  · exact hf
  · cases ht.symm.trans hr

/-- Settles O45: HALT pops and pushes nothing, so its depth check passes in every stacked state. -/
theorem haltRule : Obligations.HaltRule := by
  refine ⟨by decide, fun s hs => ?_, fun s t h hexit => fetch_halt_of_halted h (exitStatus_eq_zero_iff.1 hexit)⟩
  exact ⟨_, exec_halt hs.2, rfl, pcMoved_nextPc (op := .halt) rfl, rfl, rfl, stoppedBlockHasNoStep _ nofun⟩

end Sys2Proof.Machine
end

section
/-! PROOFS. The statements of 60_exceptions.md: which faults an instruction can take, what a fault leaves, the exit
status, and the host's moves on the invariant. -/

namespace Sys2Proof.Machine

open Sys2Proof.Claims

/-! ## The faults an instruction raises by itself (R101) -/

theorem safe_of_running {s : State} (h : s.status = .running) : s.safe := by
  intro r hr
  cases h.symm.trans hr

theorem State.safe.push {s : State} (hs : s.safe) (v : Word) : (push v s).safe := hs

theorem State.safe.pop {s : State} (hs : s.safe) : (pop s).2.safe := hs

/-- What the pseudocode of `i` may come to in the state `s`: it writes no fault record by itself, and what it raises
is a fault of its own. -/
def Effect.RaisesOwn (i : Instr) (s : State) : Effect → Prop
  | .done u => u.safe
  | .jump u _ => u.safe
  | .raised c => OwnFault s i c
  | .hold => True

/-- The shape of DIV, MOD and the shifts: a guard, then a result. -/
theorem guarded_error {p : Prop} [Decidable p] {c c' : FaultCause} {v : Word}
    (h : (if p then .error c else .ok v) = Except.error c') : p ∧ c' = c := by
  split at h
  · next hp => exact ⟨hp, (Except.error.inj h).symm⟩
  · cases h

theorem powWord_error {p : Params} {lhs rhs : Word} {c : FaultCause} (h : powWord p lhs rhs = .error c) :
    p.powWide = .fault ∧ c = .powOutOfRange lhs rhs := by
  unfold powWord at h
  split at h
  · cases h
  · split at h
    · next hp => exact ⟨hp, (Except.error.inj h).symm⟩
    · cases h

/-- R56, R101: the causes of a fault of `i` in the state `s`, each with its condition. -/
def FaultOf (i : Instr) (s : State) (c : FaultCause) : Prop :=
  (s.sp < pops i.mnemonic ∧ c = .stackUnderflow i.mnemonic s.sp) ∨
  (pops i.mnemonic ≤ s.sp ∧ s.params.stackCap < s.sp - pops i.mnemonic + pushes i.mnemonic ∧
    c = .stackOverflow i.mnemonic s.sp) ∨
  (pops i.mnemonic ≤ s.sp ∧ s.sp - pops i.mnemonic + pushes i.mnemonic ≤ s.params.stackCap ∧ OwnFault s i c)

section
variable {i : Instr} {op : Mnemonic} (hop : i.mnemonic = op) {s t : State} {r : FaultRecord}
  (ht : t.status = .faulted r)
include hop ht

/-- R56, R57: in the frame of an instruction a fault is the depth check's, or what the pseudocode raised. -/
theorem runInstr_faultOf {body : State → Effect} (h : runInstr op body s = .next t)
    (hb : (body s).RaisesOwn i s) : FaultOf i s r.cause := by
  subst hop
  rcases runInstr_cases i.mnemonic body s with ⟨h1, h'⟩ | ⟨h1, h2, h'⟩ | ⟨h1, h2, h'⟩ <;> rw [h'] at h
  · obtain rfl := Host.Outcome.next.inj h
    exact .inl ⟨h1, Status.faulted.inj ht ▸ rfl⟩
  · obtain rfl := Host.Outcome.next.inj h
    exact .inr (.inl ⟨h1, h2, Status.faulted.inj ht ▸ rfl⟩)
  · refine .inr (.inr ⟨h1, h2, ?_⟩)
    cases hbody : body s <;> rw [hbody] at h hb
    case done u => cases h; exact absurd ht (hb r)
    case jump u a => cases h; exact absurd ht (hb r)
    case raised c => cases h; exact Status.faulted.inj ht ▸ hb
    case hold => cases h

/-- R64 for an operation that can fault. -/
theorem binary_faultOf {f : Word → Word → Except FaultCause Word} (hs : s.safe)
    (h : binary op f s = .next t) (hf : ∀ lhs rhs c, f lhs rhs = .error c → OwnFault s i c) :
    FaultOf i s r.cause := by
  refine runInstr_faultOf hop ht h ?_
  dsimp only
  split
  · exact hs
  · next c hc => exact hf _ _ c hc

theorem unary_faultOf {f : Word → Word} (hs : s.safe) (h : unary op f s = .next t) : FaultOf i s r.cause :=
  runInstr_faultOf hop ht h hs

end

theorem takeInput_raisesOwn {i : Instr} {s : State} (hs : s.safe) {scan : InputScan}
    (h : ∀ r, scan = .fail r → OwnFault s i (.inputError r)) : (takeInput scan s).RaisesOwn i s := by
  cases scan with
  | value v n => exact hs
  | fail r => exact h r rfl
  | wait => trivial

theorem scanByte_fail {ended : Bool} {bs : List Byte} {r : InputReason} (h : scanByte ended bs = .fail r) :
    r = .endOfInput := by
  cases bs with
  | nil =>
    cases ended with
    | true => exact (InputScan.fail.inj h).symm
    | false => cases h
  | cons b rest => cases h

/-- R101, R103: the pseudocode of each instruction raises the faults of its row and no other. -/
theorem exec_faultOf {i : Instr} {s t : State} {r : FaultRecord} (hs : s.safe) (h : exec i s = .next t)
    (ht : t.status = .faulted r) : FaultOf i s r.cause := by
  unfold exec at h
  cases i
  case push | pop | dup | swap | jmp => exact runInstr_faultOf rfl ht h hs
  case add | sub | mult | bitwiseAnd | bitwiseOr | bitwiseXor => exact binary_faultOf rfl ht hs h nofun
  case eq | neq | lt | lte | gt | gte | and | or | xor => exact binary_faultOf rfl ht hs h nofun
  case not | bitwiseNot => exact unary_faultOf rfl ht hs h
  case print | printInt => exact runInstr_faultOf rfl ht h hs
  case rot =>
    refine runInstr_faultOf rfl ht h ?_
    dsimp only
    split <;> exact ((hs.pop.pop.pop.push _).push _).push _
  case jmpIfTrue | jmpIfFalse =>
    refine runInstr_faultOf rfl ht h ?_
    dsimp only
    split <;> exact hs
  case div | mod => exact binary_faultOf rfl ht hs h fun lhs _ _ he => ⟨lhs, (guarded_error he).2⟩
  case pow =>
    refine binary_faultOf rfl ht hs h fun lhs rhs _ he => ?_
    obtain ⟨hp, hc⟩ := powWord_error he
    exact ⟨hp, lhs, rhs, hc⟩
  case shiftLeft | shiftRight =>
    refine binary_faultOf rfl ht hs h fun _ rhs _ he => ?_
    obtain ⟨hle, hc⟩ := guarded_error he
    exact ⟨rhs, hc, hle⟩
  case alloc imm =>
    refine runInstr_faultOf rfl ht h ?_
    split
    · next ha => obtain ⟨_, _, rfl⟩ := alloc_spec ha; exact hs
    · exact rfl
  case free | sto =>
    refine runInstr_faultOf rfl ht h ?_
    dsimp only
    split
    · exact hs
    · exact ⟨_, rfl⟩
  case ret =>
    refine runInstr_faultOf rfl ht h ?_
    dsimp only
    split
    · exact hs
    · exact ⟨_, _, rfl⟩
    · exact ⟨_, _, rfl⟩
  case input => exact runInstr_faultOf rfl ht h (takeInput_raisesOwn hs fun _ hr => congrArg _ (scanByte_fail hr))
  case inputInt => exact runInstr_faultOf rfl ht h (takeInput_raisesOwn hs fun r _ => ⟨r, rfl⟩)
  case halt => exact runInstr_faultOf rfl ht h nofun

/-- Settles O13: the row of R50 is the one the depth check uses, and where it passes the pseudocode raised the
fault. -/
theorem faultKindsByInstruction : Obligations.FaultKindsByInstruction := by
  intro i s t r p q hr h ht hrow
  obtain ⟨hp, hq⟩ : p = pops i.mnemonic ∧ q = pushes i.mnemonic := signatures_eq_pops_pushes _ hrow
  subst hp hq
  exact exec_faultOf (safe_of_running hr) h ht

/-! ## What a fault leaves (R100, R102, R104) -/

theorem step_faulted {s t : State} {r : FaultRecord} (h : step s = .next t) (ht : t.status = .faulted r) :
    ∃ c, t = takeFault c s := by
  rcases step_next_cases h with hc | ⟨i, u, a, _, _, _, hu, rfl⟩
  · exact hc
  · have hstatus := ht.symm.trans hu.status_eq
    rw [running_of_step h] at hstatus
    split at hstatus <;> cases hstatus

/-- Settles O14: the state a fault leaves is `takeFault` of the old one. -/
theorem faultsArePrecise : Obligations.FaultsArePrecise := by
  intro s t r _ h ht
  obtain ⟨c, rfl⟩ := step_faulted h ht
  obtain rfl := Status.faulted.inj ht
  exact ⟨rfl, rfl, stoppedBlockHasNoStep _ nofun⟩

/-! ## The exit status of a step (R58, R99, R106) -/

/-- Settles O25: HALT completes in a state with the invariant, and nothing else leaves a block halted. -/
theorem exitStatusOfEndedRun : Obligations.ExitStatusOfEndedRun := by
  intro s t hs hr h
  refine ⟨⟨fun hexit => fetch_halt_of_halted h (exitStatus_eq_zero_iff.1 hexit), fun hf => ?_⟩,
    exitStatus_eq_one_iff, exitStatus_eq_none_iff⟩
  rw [step_of_fetch_ok hr hf, exec_halt hs.sp_le] at h
  exact Host.Outcome.next.inj h ▸ rfl

/-! ## The host's moves (R112) -/

/-- Settles O17: the moves write the input stream alone, and only lengthen it. -/
theorem hostMovesKeepInvariant : Obligations.HostMovesKeepInvariant := by
  intro s bs hs
  refine ⟨?_, { hs with }⟩
  cases hend : s.inEnded with
  | true => rwa [supplyInput_of_ended hend]
  | false =>
    rw [supplyInput_of_open hend]
    exact { hs with inPos_le := hs.inPos_le.trans (by simp) }

end Sys2Proof.Machine
end

section
/-! PROOFS. The statements of 70_reset_and_hazards.md: when the host acts does not matter, the program header, the
loader, and the state a program starts in. -/

namespace Sys2Proof.Machine

open Sys2Proof.Claims

/-! ## More input (R112, R124)

Both of the host's moves add to the input: `more` bytes after those supplied, and perhaps the end of the stream. A step
that exists reads neither, so it commutes with the addition. -/

/-- `s` with more bytes supplied, and with the stream ended or not. -/
def moreInput (more : List Byte) (ended : Bool) (s : State) : State :=
  { s with inStream := s.inStream ++ more, inEnded := ended }

theorem supplyInput_eq_moreInput {s : State} (h : s.inEnded = false) (bs : List Byte) :
    supplyInput bs s = moreInput bs false s := by
  rw [supplyInput_of_open h, moreInput, ← h]

theorem endInput_eq_moreInput (s : State) : endInput s = moreInput [] true s := by
  rw [endInput, moreInput, List.append_nil]

/-- What a change of state makes of an instruction's pseudocode. -/
def Effect.map (f : State → State) : Effect → Effect
  | .done u => .done (f u)
  | .jump u target => .jump (f u) target
  | .raised c => .raised c
  | .hold => .hold

/-- R97: a byte that is there is the next one, whatever follows. -/
theorem scanByte_more {bytes : List Byte} (h : scanByte false bytes ≠ .wait) (ended : Bool) (more : List Byte) :
    scanByte ended (bytes ++ more) = scanByte false bytes := by
  cases bytes with
  | nil => exact absurd rfl h
  | cons b rest => rfl

theorem DigitRun.append {bs ds tail : List Byte} (h : DigitRun bs ds tail) (hne : tail ≠ []) (more : List Byte) :
    DigitRun (bs ++ more) ds (tail ++ more) where
  eq_append := by rw [h.eq_append, List.append_assoc]
  ne_nil := h.ne_nil
  digits := h.digits
  ends b rest hb := by
    obtain ⟨b', rest', rfl⟩ := List.exists_cons_of_ne_nil hne
    exact (List.cons.inj hb).1 ▸ h.ends b' rest' rfl

/-- R98: where INPUT_INT does not wait, the byte that decides is there, whatever follows. -/
theorem scanInt_more {w : Width} {bytes : List Byte} (h : scanInt w false bytes ≠ .wait) (ended : Bool)
    (more : List Byte) : scanInt w ended (bytes ++ more) = scanInt w false bytes := by
  obtain ⟨ws, bs, rfl, hws, rfl | ⟨b, rest, rfl, hb, hd⟩ | ⟨ds, tail, hrun⟩⟩ := input_shape bytes
  · rw [List.append_nil, scanInt_of_white hws] at h
    exact absurd rfl h
  · rw [List.append_assoc, List.cons_append, scanInt_of_not_digit hws hb hd, scanInt_of_not_digit hws hb hd]
  · have hne : tail ≠ [] := by
      rintro rfl
      rw [hrun.scanInt_eq hws, if_pos ⟨rfl, rfl⟩] at h
      exact h rfl
    have hmore : tail ++ more ≠ [] := List.append_ne_nil_of_left_ne_nil hne more
    rw [List.append_assoc, (hrun.append hne more).scanInt_eq hws, hrun.scanInt_eq hws]
    simp only [hne, hmore, false_and, if_false]

section
variable {s t : State} (more : List Byte) (ended : Bool)

@[simp] theorem moreInput_params : (moreInput more ended s).params = s.params := rfl
@[simp] theorem moreInput_heap : (moreInput more ended s).heap = s.heap := rfl

@[simp] theorem pop_moreInput : pop (moreInput more ended s) = ((pop s).1, moreInput more ended (pop s).2) := rfl

@[simp] theorem push_moreInput (v : Word) : push v (moreInput more ended s) = moreInput more ended (push v s) := rfl

theorem unread_moreInput (h : s.inPos ≤ s.inStream.length) :
    unread (moreInput more ended s) = unread s ++ more :=
  List.drop_append_of_le_length h

theorem runInstr_moreInput {op : Mnemonic} {body : State → Effect}
    (hb : body s ≠ .hold → body (moreInput more ended s) = (body s).map (moreInput more ended))
    (h : runInstr op body s = .next t) :
    runInstr op body (moreInput more ended s) = .next (moreInput more ended t) := by
  rcases runInstr_cases op body s with ⟨h1, h'⟩ | ⟨h1, h2, h'⟩ | ⟨h1, h2, h'⟩ <;> rw [h'] at h
  · cases h
    exact runInstr_under (s := moreInput more ended s) h1
  · cases h
    exact runInstr_over (s := moreInput more ended s) h1 h2
  · rw [runInstr_ok (s := moreInput more ended s) h1 h2]
    cases hbody : body s <;> rw [hbody] at h hb
    case done u => cases h; rw [hb nofun]; rfl
    case jump u a => cases h; rw [hb nofun]; rfl
    case raised c => cases h; rw [hb nofun]; rfl
    case hold => cases h

theorem binary_moreInput {op : Mnemonic} {f : Word → Word → Except FaultCause Word} (h : binary op f s = .next t) :
    binary op f (moreInput more ended s) = .next (moreInput more ended t) := by
  refine runInstr_moreInput more ended (fun _ => ?_) h
  simp only [pop_moreInput, push_moreInput]
  cases f (pop (pop s).2).1 (pop s).1 <;> rfl

theorem unary_moreInput {op : Mnemonic} {f : Word → Word} (h : unary op f s = .next t) :
    unary op f (moreInput more ended s) = .next (moreInput more ended t) :=
  runInstr_moreInput more ended (fun _ => rfl) h

theorem alloc_moreInput (n : Word) :
    alloc n (moreInput more ended s) = (alloc n s).map fun r => (r.1, moreInput more ended r.2) := by
  have hanswer : allocAnswer (moreInput more ended s) = allocAnswer s := rfl
  unfold alloc
  rw [hanswer]
  cases allocAnswer s with
  | fail => rfl
  | base b =>
    by_cases ha : Memory.admits s.params.width n.toNat b s.heap = true <;> simp [ha, moreInput]

theorem IsInput.exec_moreInput {i : Instr} {scan : State → InputScan} (hi : IsInput i scan)
    (hscan : scan s ≠ .wait → scan (moreInput more ended s) = scan s) (h : exec i s = .next t) :
    exec i (moreInput more ended s) = .next (moreInput more ended t) := by
  rw [hi.exec_eq] at h ⊢
  refine runInstr_moreInput more ended (fun hb => ?_) h
  rw [hscan (mt takeInput_hold.2 hb)]
  cases scan s <;> rfl

/-- R124: an instruction that completes or faults does the same with more input. -/
theorem exec_moreInput {i : Instr} (hle : s.inPos ≤ s.inStream.length) (hopen : s.inEnded = false)
    (h : exec i s = .next t) : exec i (moreInput more ended s) = .next (moreInput more ended t) := by
  cases i
  case input =>
    refine IsInput.input.exec_moreInput more ended (fun hw => ?_) h
    rw [hopen] at hw ⊢
    rw [unread_moreInput more ended hle]
    exact scanByte_more hw ended more
  case inputInt =>
    refine IsInput.inputInt.exec_moreInput more ended (fun hw => ?_) h
    rw [hopen] at hw ⊢
    rw [unread_moreInput more ended hle]
    exact scanInt_more hw ended more
  all_goals unfold exec at h ⊢
  case push | pop | dup | swap | jmp | print | printInt | halt =>
    exact runInstr_moreInput more ended (fun _ => rfl) h
  case add | sub | mult | div | mod | pow => exact binary_moreInput more ended h
  case eq | neq | lt | lte | gt | gte | and | or | xor => exact binary_moreInput more ended h
  case bitwiseAnd | bitwiseOr | bitwiseXor | shiftLeft | shiftRight => exact binary_moreInput more ended h
  case not | bitwiseNot => exact unary_moreInput more ended h
  case rot =>
    refine runInstr_moreInput more ended (fun _ => ?_) h
    simp only [pop_moreInput, push_moreInput, moreInput_params]
    cases s.params.rotMode <;> rfl
  case alloc imm =>
    refine runInstr_moreInput more ended (fun _ => ?_) h
    rw [alloc_moreInput]
    cases alloc imm s <;> rfl
  case free =>
    refine runInstr_moreInput more ended (fun _ => ?_) h
    simp only [pop_moreInput, moreInput_heap]
    cases Memory.release (pop s).1 (pop s).2.heap <;> rfl
  case sto =>
    refine runInstr_moreInput more ended (fun _ => ?_) h
    simp only [pop_moreInput, moreInput_heap, moreInput_params]
    cases Memory.write s.params.width (pop (pop s).2).1 (pop s).1 (pop (pop s).2).2.heap <;> rfl
  case ret =>
    refine runInstr_moreInput more ended (fun _ => ?_) h
    simp only [pop_moreInput, push_moreInput, moreInput_heap, moreInput_params]
    cases Memory.read s.params.width (pop s).1 (pop s).2.heap <;> rfl
  case jmpIfTrue | jmpIfFalse =>
    refine runInstr_moreInput more ended (fun _ => ?_) h
    by_cases hc : truthy (pop s).1 = true <;> simp [hc, Effect.map]

/-- R112, R124: the fetch does not look at the input, and what it fetches does the same with more of it. -/
theorem step_moreInput (hle : s.inPos ≤ s.inStream.length) (hopen : s.inEnded = false) (h : step s = .next t) :
    step (moreInput more ended s) = .next (moreInput more ended t) := by
  rcases step_cases s with ⟨_, h'⟩ | ⟨_, _, h'⟩ | ⟨hr, c, hf, h'⟩ | ⟨hr, i, hf, h'⟩ <;> rw [h'] at h
  · cases h
  · cases h
  · cases h
    exact step_of_fetch_error (s := moreInput more ended s) hr hf
  · rw [step_of_fetch_ok (s := moreInput more ended s) hr hf]
    exact exec_moreInput more ended hle hopen h

end

/-- Settles O50: both moves are more input, for the state of the step and for the one it leaves. -/
theorem inputTimingChangesNothing : Obligations.InputTimingChangesNothing := by
  intro s t bs hle hopen h
  have hopen' : t.inEnded = false := by
    rcases step_next_cases h with ⟨c, rfl⟩ | ⟨i, u, a, _, _, _, hu, rfl⟩
    · exact hopen
    · exact hu.inEnded_eq.trans hopen
  rw [supplyInput_eq_moreInput hopen, supplyInput_eq_moreInput hopen', endInput_eq_moreInput, endInput_eq_moreInput]
  exact ⟨step_moreInput bs false hle hopen h, step_moreInput [] true hle hopen h⟩

/-! ## The program header (R115, R118) -/

/-- The `n` bytes of an image at the offset `a`, little-endian. -/
def headerField (image : List Byte) (a n : Nat) : BitVec (8 * n) :=
  BitVec.ofNat (8 * n) (wordOfBytes ((image.drop a).take n))

section
variable {image : List Byte} {a n : Nat} (h : a + n ≤ image.length)
include h

theorem length_take_drop : ((image.drop a).take n).length = n :=
  List.length_take_of_le (by rw [List.length_drop]; omega)

theorem headerField_toNat : (headerField image a n).toNat = littleEndian image a n := by
  have hlt := wordOfBytes_lt ((image.drop a).take n)
  rw [length_take_drop h] at hlt
  rw [headerField, BitVec.toNat_ofNat, Nat.mod_eq_of_lt hlt, wordOfBytes_take_drop]

theorem bytesOfWord_headerField : bytesOfWord n (headerField image a n).toNat = (image.drop a).take n := by
  have hbytes := bytesOfWord_wordOfBytes ((image.drop a).take n)
  rwa [length_take_drop h, wordOfBytes_take_drop, ← headerField_toNat h] at hbytes

end

theorem ofNat_wordOfBytes_bytesOfWord_toNat {n : Nat} (v : BitVec (8 * n)) :
    BitVec.ofNat (8 * n) (wordOfBytes (bytesOfWord n v.toNat)) = v := by
  rw [wordOfBytes_bytesOfWord, Nat.mod_eq_of_lt v.isLt, BitVec.ofNat_toNat, BitVec.setWidth_eq]

/-- R115: ten bytes are a header, each field at its offset. -/
theorem decodeHeader_of_long {image : List Byte} (h : 10 ≤ image.length) :
    decodeHeader image = some (⟨headerField image 0 2, headerField image 2 2, headerField image 4 2,
      headerField image 6 4⟩, image.drop 10) :=
  if_neg (Nat.not_lt.2 h)

theorem decodeHeader_of_short {image : List Byte} (h : image.length < 10) : decodeHeader image = none :=
  if_pos h

theorem encodeHeader_length (h : Header) : (encodeHeader h).length = 10 := rfl

theorem decodeHeader_encodeHeader (h : Header) (rest : List Byte) :
    decodeHeader (encodeHeader h ++ rest) = some (h, rest) := by
  have hlen : 10 ≤ (encodeHeader h ++ rest).length := by rw [List.length_append, encodeHeader_length]; omega
  have hmajor : headerField (encodeHeader h ++ rest) 0 2 = h.major := ofNat_wordOfBytes_bytesOfWord_toNat (n := 2) _
  have hminor : headerField (encodeHeader h ++ rest) 2 2 = h.minor := ofNat_wordOfBytes_bytesOfWord_toNat (n := 2) _
  have hpatch : headerField (encodeHeader h ++ rest) 4 2 = h.patch := ofNat_wordOfBytes_bytesOfWord_toNat (n := 2) _
  have hsize : headerField (encodeHeader h ++ rest) 6 4 = h.bodySize := ofNat_wordOfBytes_bytesOfWord_toNat (n := 4) _
  rw [decodeHeader_of_long hlen, hmajor, hminor, hpatch, hsize]
  rfl

theorem decodeHeader_spec {image rest : List Byte} {h : Header} (hd : decodeHeader image = some (h, rest)) :
    10 ≤ image.length ∧ rest = image.drop 10 ∧
      h = ⟨headerField image 0 2, headerField image 2 2, headerField image 4 2, headerField image 6 4⟩ := by
  by_cases hlen : image.length < 10
  · rw [decodeHeader_of_short hlen] at hd
    cases hd
  · have hlen : 10 ≤ image.length := Nat.le_of_not_lt hlen
    rw [decodeHeader_of_long hlen] at hd
    obtain ⟨rfl, rfl⟩ := Prod.mk.inj (Option.some.inj hd)
    exact ⟨hlen, rfl, rfl⟩

theorem encodeHeader_of_decodeHeader {image rest : List Byte} {h : Header}
    (hd : decodeHeader image = some (h, rest)) : encodeHeader h ++ rest = image := by
  obtain ⟨hlen, rfl, rfl⟩ := decodeHeader_spec hd
  rw [encodeHeader, bytesOfWord_headerField (by omega), bytesOfWord_headerField (by omega),
    bytesOfWord_headerField (by omega), bytesOfWord_headerField (by omega), List.drop_zero, ← List.take_add,
    ← List.take_add, ← List.take_add, List.take_append_drop]

/-- Settles O51: the four fields lie side by side in the ten bytes, each as the value of its bytes. -/
theorem headerRoundTrip : Obligations.HeaderRoundTrip := by
  refine ⟨decodeHeader_encodeHeader, fun image h rest hd => ⟨encodeHeader_of_decodeHeader hd, ?_⟩⟩
  obtain ⟨hlen, _, rfl⟩ := decodeHeader_spec hd
  exact ⟨headerField_toNat (by omega), headerField_toNat (by omega), headerField_toNat (by omega),
    headerField_toNat (by omega)⟩

/-! ## The loader (R115 to R119) -/

section
variable {v : EngineVersion} {h : Header}

theorem versionError_of_major_ne (hmajor : h.major ≠ v.major) : versionError v h = some .versionMismatch :=
  if_pos hmajor

theorem versionError_of_minor_gt (hmajor : h.major = v.major) (hminor : v.minor.toNat < h.minor.toNat) :
    versionError v h = some .versionTooNew := by
  rw [versionError, if_neg (not_not.2 hmajor), if_pos hminor]

theorem versionError_of_accepted (hmajor : h.major = v.major) (hminor : h.minor.toNat ≤ v.minor.toNat) :
    versionError v h = none := by
  rw [versionError, if_neg (not_not.2 hmajor), if_neg (Nat.not_lt.2 hminor)]

variable (p : Params)

theorem load_of_versionError {e : LoadError} (he : versionError v h = some e) (rest : List Byte) :
    load v p (.image (encodeHeader h ++ rest)) = .failed e := by
  simp only [load, decodeHeader_encodeHeader, he]

theorem load_of_short_body (he : versionError v h = none) {body : List Byte}
    (hlen : body.length < h.bodySize.toNat) :
    load v p (.image (encodeHeader h ++ body)) = .failed .truncatedProgram := by
  simp only [load, decodeHeader_encodeHeader, he, if_pos hlen]

/-- R118: the bytes after the body are not part of the program. -/
theorem load_of_accepted (he : versionError v h = none) {body : List Byte} (hlen : body.length = h.bodySize.toNat)
    (trailing : List Byte) :
    load v p (.image (encodeHeader h ++ body ++ trailing)) = .started (.start p ⟨h, body⟩) := by
  have hnot : ¬ (body ++ trailing).length < h.bodySize.toNat := by rw [List.length_append]; omega
  simp only [load, List.append_assoc, decodeHeader_encodeHeader, he, if_neg hnot, List.take_left' hlen]

end

/-- Settles O52: by the three answers of the version check. -/
theorem loaderVersionCheck : Obligations.LoaderVersionCheck := by
  intro v p h body trailing hlen
  refine ⟨fun hmajor => ?_, fun hmajor hminor => ?_,
    fun hmajor hminor => load_of_accepted p (versionError_of_accepted hmajor hminor) hlen trailing⟩
  · rw [List.append_assoc]
    exact load_of_versionError p (versionError_of_major_ne hmajor) _
  · rw [List.append_assoc]
    exact load_of_versionError p (versionError_of_minor_gt hmajor hminor) _

/-- R115, R117 (log 12): a short header is found before anything is read from it. -/
theorem load_of_short_header (v : EngineVersion) (p : Params) {bytes : List Byte} (h : bytes.length < 10) :
    load v p (.image bytes) = .failed .truncatedProgram := by
  simp only [load, decodeHeader_of_short h]

/-- Settles O53: each error by its branch of the loader. -/
theorem loadingErrors : Obligations.LoadingErrors := by
  refine ⟨fun v p h rest hmajor => load_of_versionError p (versionError_of_major_ne hmajor) rest,
    fun v p h rest hmajor hminor => load_of_versionError p (versionError_of_minor_gt hmajor hminor) rest,
    fun v p bytes => load_of_short_header v p,
    fun v p h body hlen hmajor hminor => load_of_short_body p (versionError_of_accepted hmajor hminor) hlen,
    fun v p => ⟨rfl, rfl⟩, fun v p r e he => ?_, rfl⟩
  rw [he]
  rfl

/-! ## The state a program starts in (R119) -/

theorem start_inv {p : Params} {g : Program} (hp : p.Ok) (hsize : g.header.bodySize.toNat = g.body.length) :
    (State.start p g).Inv where
  params_ok := hp
  size_eq := hsize
  pc_fits := zero_fits _
  stk_length := List.length_replicate
  sp_le := Nat.zero_le _
  stk_fits _ hv := List.eq_of_mem_replicate hv ▸ zero_fits _
  heap_wf := ⟨nofun, .nil⟩
  inPos_le := Nat.le_refl _
  faultPc_eq := nofun

/-- Settles O16: reset is the start of the empty program under the default parameters. -/
theorem invariantHoldsAtReset : Obligations.InvariantHoldsAtReset :=
  ⟨start_inv (by decide) rfl, fun _ _ => start_inv⟩

/-- R118, R119: all that a load that starts a block can do. -/
theorem load_started {v : EngineVersion} {p : Params} {r : LoadRequest} {s : State} (h : load v p r = .started s) :
    ∃ g : Program, s = .start p g ∧ g.body.length = g.header.bodySize.toNat := by
  unfold load at h
  split at h
  · cases h
  · cases h
  · split at h
    · cases h
    · split at h
      · cases h
      · split at h
        · cases h
        · next hlen => exact ⟨_, (LoadResult.started.inj h).symm, List.length_take_of_le (Nat.le_of_not_lt hlen)⟩

/-- Settles O54: the block is the start state of its program, and the first fetch is at offset 0. -/
theorem loadStartsAtReset : Obligations.LoadStartsAtReset := by
  intro v p r s hp h
  obtain ⟨g, rfl, hlen⟩ := load_started h
  exact ⟨rfl, rfl, rfl, rfl, rfl, rfl, rfl, hlen, start_inv hp hlen.symm,
    fun i rest hdec => stepRunsDecodedInstruction _ i rest rfl hdec⟩

end Sys2Proof.Machine
end
